-- ==== Sys2Proof/Word.lean ====
section
/-! DEFINITION. The word and byte types of SHA256C (`00_scope.md` R7, R11). -/

namespace Sys2Proof

/-- A word: 32 bits, unsigned, bit 31 the most significant (R11). -/
abbrev Word := BitVec 32

/-- A byte of a message or a digest; only the host's conversions deal in bytes (R50, R51). -/
abbrev Byte := BitVec 8

end Sys2Proof
end

