-- ==== Sys2Proof/Syntax.lean ====
section
/-! DEFINITION. The instructions of SHA256C: the six host commands of `SHA256C-CMD v1` and the four
micro-operations of `SHA256C-SEQ v1` (`30_encoding.md` R70, R74, R77). -/

namespace Sys2Proof

/-- One constructor for each row of spec/opcode_table.json. -/
inductive Instr where
  /-- `NOP` (R151). -/
  | nop
  /-- `INIT` (R152). -/
  | init
  /-- `LDW i, x` (R153): the word index `i` of the command word and the data word `x` sent with it (`wdata`). -/
  | ldw (i : BitVec 4) (x : Word)
  /-- `START` (R154). -/
  | start
  /-- `RDH i` (R155): the word index `i`. -/
  | rdh (i : BitVec 3)
  /-- `RDS` (R156). -/
  | rds
  /-- `XPND t` (R122): the sequencer index `t`, 16 to 63. -/
  | xpnd (t : BitVec 6)
  /-- `LOADV` (R130). -/
  | loadv
  /-- `RND t` (R132): the sequencer index `t`, 0 to 63. -/
  | rnd (t : BitVec 6)
  /-- `FOLD` (R134). -/
  | fold
  deriving DecidableEq, Repr

end Sys2Proof
end

