-- ==== Sys2Proof/WellFormed.lean ====
section
/-! DEFINITION. Which instructions are well formed. The operand types bound every operand but one: the index of
`XPND` starts at 16 (`30_encoding.md` R77). -/

namespace Sys2Proof

/-- The operand values the spec admits (R72 for the commands, R77 for the micro-operations). -/
def Instr.wellFormed : Instr → Bool
  | .nop => true
  | .init => true
  | .ldw _ _ => true
  | .start => true
  | .rdh _ => true
  | .rds => true
  | .xpnd t => decide (16#6 ≤ t)
  | .loadv => true
  | .rnd _ => true
  | .fold => true

end Sys2Proof
end

