-- ==== Sys2Proof/Decode.lean ====
section
/-! DEFINITION. Decoding and encoding (`30_encoding.md`): a command word with its data word, or a sequencer
position, to an instruction or a named rejection, and back. -/

namespace Sys2Proof

/-- What the hardware decodes: a transfer on the command port, the 8-bit command word `c` with the 32-bit `wdata`
(R71), or the 9-bit sequencer position `ph[2:0] || t[5:0]` (R77). -/
inductive Code where
  | cmd (c : BitVec 8) (d : Word)
  | seq (p : BitVec 9)
  deriving DecidableEq, Repr

/-- Why a code is no instruction. -/
inductive Reject where
  /-- A command word that matches no row of R74: one of the 228 words of R75. -/
  | illegalCommand
  /-- The position `000000000`: the sequencer is idle, there is no micro-operation (R77). -/
  | sequencerIdle
  /-- One of the 397 positions the spec gives no meaning (R78). -/
  | unreachablePosition
  deriving DecidableEq, Repr

/-- A command word selects a row of R74 when its masked bits equal the row's match. -/
def selects (mask pattern c : BitVec 8) : Bool := c &&& mask == pattern

/-- The opcode map of R74, row by row; `idx` is taken as it stands (R72), `wdata` by `LDW` alone (R73). -/
def decodeCmd (c : BitVec 8) (d : Word) : Except Reject Instr :=
  if selects 0xFF#8 0x00#8 c then .ok .nop
  else if selects 0xFF#8 0x10#8 c then .ok .init
  else if selects 0xF0#8 0x20#8 c then .ok (.ldw (c.extractLsb' 0 4) d)
  else if selects 0xFF#8 0x30#8 c then .ok .start
  else if selects 0xF8#8 0x40#8 c then .ok (.rdh (c.extractLsb' 0 3))
  else if selects 0xFF#8 0x50#8 c then .ok .rds
  else .error .illegalCommand

/-- The field `ph` of a position (R77): bits 8 to 6. -/
def seqPhase (p : BitVec 9) : BitVec 3 := p.extractLsb' 6 3

/-- The field `t` of a position (R77): bits 5 to 0. -/
def seqIndex (p : BitVec 9) : BitVec 6 := p.extractLsb' 0 6

/-- The position table of R77; every other value is rejected (R78), `ph = 0b001` with `t < 16` among them. -/
def decodeSeq (p : BitVec 9) : Except Reject Instr :=
  if seqPhase p = 0b000#3 ∧ seqIndex p = 0#6 then .error .sequencerIdle
  else if seqPhase p = 0b001#3 ∧ 16#6 ≤ seqIndex p then .ok (.xpnd (seqIndex p))
  else if seqPhase p = 0b010#3 ∧ seqIndex p = 0#6 then .ok .loadv
  else if seqPhase p = 0b011#3 then .ok (.rnd (seqIndex p))
  else if seqPhase p = 0b100#3 ∧ seqIndex p = 0#6 then .ok .fold
  else .error .unreachablePosition

/-- Decoding, total on every code. -/
def decode : Code → Except Reject Instr
  | .cmd c d => decodeCmd c d
  | .seq p => decodeSeq p

/-- The code of an instruction (R74, R77). A command without a data operand is sent with `wdata = 0` (R81). -/
def encode : Instr → Code
  | .nop => .cmd 0x00#8 0#32
  | .init => .cmd 0x10#8 0#32
  | .ldw i x => .cmd (0b0010#4 ++ i) x
  | .start => .cmd 0x30#8 0#32
  | .rdh i => .cmd (0b01000#5 ++ i) 0#32
  | .rds => .cmd 0x50#8 0#32
  | .xpnd t => .seq (0b001#3 ++ t)
  | .loadv => .seq 0b010000000#9
  | .rnd t => .seq (0b011#3 ++ t)
  | .fold => .seq 0b100000000#9

/-- The code in the bits of an opcode-table word `w` of `nbits` bits: a `CMD` word in the low 8 bits, with its
`wdata` in bits 39 to 8 where the word has them and zero where it has not; or a `SEQ` word of 9 bits, for which
the table's row is rounded up to 16. Bits above the 9 must be zero. -/
def codeOfTableWord (nbits w : Nat) : Option Code :=
  if nbits ≤ 8 ∨ nbits = 40 then some (.cmd (BitVec.ofNat 8 w) (BitVec.ofNat 32 (w / 2 ^ 8)))
  else if w < 2 ^ 9 then some (.seq (BitVec.ofNat 9 w))
  else none

/-- What the decoder reads from an opcode-table word. -/
def decodeTableWord (nbits w : Nat) : Option Instr :=
  match codeOfTableWord nbits w with
  | some code =>
    match decode code with
    | .ok i => some i
    | .error _ => none
  | none => none

end Sys2Proof
end

