-- ==== Sys2Proof/Config.lean ====
section
/-! DEFINITION. What the spec leaves open for an implementation: constants without a body, so that no proof can
learn their values. -/

namespace Sys2Proof

/-- DESIGN CHOICE (log entry 4). The content of a word that `Reset` leaves `undef` (`10_state.md` R38, R40;
`93_implementation_defined.md` U1: any value, and never a chosen one). The argument numbers the draw. -/
opaque Config.undefWord : Nat → Word

/-- The time one sequencer micro-step takes (`00_scope.md` R9). No rule and no definition of the model reads it. -/
opaque Config.latStep : Nat

/-- The time between a command's acceptance and its response (`00_scope.md` R9). No rule and no definition reads it. -/
opaque Config.latCmd : Nat

end Sys2Proof
end

