-- ==== Sys2Proof/Machine/State.lean ====
section
/-! DEFINITION. The state of one SHA256C core as `10_state.md` R20 lists it, the host's side of the port beside it,
the reasons a step can stop, and the state after reset. -/

namespace Sys2Proof.Machine

/-- The sequencer phase `ph` (R27). The codes 5 to 7, never reached, cannot be written (R39 item 1, R78). -/
inductive Phase where
  /-- No block in progress; the command port is ready. -/
  | idle
  /-- The next step is `XPND t`. -/
  | expand
  /-- The next step is `LOADV`. -/
  | loadv
  /-- The next step is `RND t`. -/
  | round
  /-- The next step is `FOLD`. -/
  | fold
  deriving DecidableEq, Repr

/-- The three exceptions of the command port (`60_exceptions.md` R200). -/
inductive Cause where
  /-- `E_ILLEGAL` (R201). -/
  | illegal
  /-- `E_NOT_INIT` (R202). -/
  | notInit
  /-- `E_INCOMPLETE` (R203). -/
  | incomplete
  deriving DecidableEq, Repr

/-- The response code `resp` (`30_encoding.md` R80): executed, or refused for a cause. -/
inductive Resp where
  | ok
  | err (cause : Cause)
  deriving DecidableEq, Repr

/-- What the core answers to an accepted command (`44_host_commands.md` R150). -/
structure Response where
  resp : Resp
  rdata : Word
  deriving DecidableEq, Repr

/-- The three kinds of event, and nothing else changes the state (`00_scope.md` R10). -/
inductive Event where
  /-- `Reset`, enabled in every state. -/
  | reset
  /-- `Cmd(c, d)`: held, and left in its place, while the sequencer is busy (R150). -/
  | cmd (c : BitVec 8) (d : Word)
  /-- One turn given to the sequencer, the host doing nothing meanwhile. -/
  | seqStep
  deriving DecidableEq, Repr

/-- The state. The fields down to `EINC` are R20's tuple; the last three are the model's own (log entries 1, 3, 5). -/
structure State where
  /-- The hash state registers `H[0..7]` (R21). -/
  H : Vector Word 8
  /-- The working registers `v[0..7]`, that is `a` to `h` (R22). -/
  v : Vector Word 8
  /-- The schedule memory `W[0..63]` (R24). -/
  W : Vector Word 64
  /-- The sequencer phase (R27). -/
  ph : Phase
  /-- The sequencer index (R27). -/
  t : BitVec 6
  /-- `H` has been loaded from the initial-state ROM since reset (R29). -/
  INITD : Bool
  /-- Bit `i` is `WV[i]`: block word `i` has been written since the last `FOLD` or reset (R30). -/
  WV : BitVec 16
  /-- Sticky: an illegal command word was seen (R32, R201). -/
  EILL : Bool
  /-- Sticky: `START` or `RDH` was issued while `INITD = 0` (R32, R202). -/
  ENIN : Bool
  /-- Sticky: `START` was issued while a block word was missing (R32, R203). -/
  EINC : Bool
  /-- The model's own: what the environment does next, oldest first (the open schedule of R9). -/
  events : List Event
  /-- The model's own: the responses given so far, newest first. -/
  responses : List Response
  /-- The model's own: how many free words have been drawn. -/
  draws : Nat
  deriving DecidableEq, Repr

/-- The reasons a step can stop with a fault: there are none. No event stops this hardware (R101, R136, R204); its three
exceptions are next states (R206). -/
inductive Fault where
  deriving DecidableEq, Repr

/-- The reasons the model gives a step no meaning. -/
inductive Refusal where
  /-- An instruction whose meaning is not written yet. Safe: the machine stops. No arm of `exec` answers it. -/
  | notModelled (mnemonic : String)
  /-- A sequencer position that no run reaches (`30_encoding.md` R78: no meaning, refuse to step). Raised by the step,
  and by `XPND` below index 16. Safe: the machine stops. -/
  | unreachablePosition
  /-- A micro-operation run at a position that does not name it (`45_sequencer_control.md` R170). Raised by the four
  micro-operations when they are run by hand; the step never asks for it. Safe: the machine stops. -/
  | notAtPosition
  deriving DecidableEq, Repr

/-- The reset state of R40 with the free words numbered from `n`: `H`, `v` and `W` are `undef`, everything else of
R20 is as the table says; the host's side of the port is given. -/
def State.resetFrom (n : Nat) (events : List Event) (responses : List Response) : State where
  H := Vector.ofFn fun i => Config.undefWord (n + i.val)
  v := Vector.ofFn fun i => Config.undefWord (n + 8 + i.val)
  W := Vector.ofFn fun i => Config.undefWord (n + 16 + i.val)
  ph := .idle
  t := 0
  INITD := false
  WV := 0
  EILL := false
  ENIN := false
  EINC := false
  events := events
  responses := responses
  draws := n + 80

/-- The machine right after its first reset (R40, R233 item 1), with no event scheduled and no response given. -/
def State.reset : State := State.resetFrom 0 [] []

/-- The `busy` output: 1 exactly when `ph != IDLE` (`60_exceptions.md` R210). -/
def State.busy (s : State) : Bool := decide (s.ph ≠ .idle)

end Sys2Proof.Machine
end

