-- ==== Sys2Proof/Machine/Flags.lean ====
section
/-! DEFINITION. The flags and the `STATUS` view (`10_state.md` R28 to R33). There is no arithmetic flag (R28). -/

namespace Sys2Proof.Machine

/-- `INITD <- 1` (R29). -/
def setInitd (s : State) : State := { s with INITD := true }

/-- `WV[i] <- 1` (R30). -/
def setLoaded (i : BitVec 4) (s : State) : State := { s with WV := s.WV ||| BitVec.twoPow 16 i.toNat }

/-- All 16 bits of `WV` cleared (R31). -/
def clearLoaded (s : State) : State := { s with WV := 0#16 }

/-- All 16 block words are loaded: `START`'s second precondition, `WV = 0xFFFF` (R154). -/
def allLoaded (s : State) : Bool := s.WV == 0xFFFF#16

/-- The sticky flag of a cause is set (R32, R200); a flag already set stays set. -/
def setError (c : Cause) (s : State) : State :=
  match c with
  | .illegal => { s with EILL := true }
  | .notInit => { s with ENIN := true }
  | .incomplete => { s with EINC := true }

/-- The read-only view `STATUS = (WV[15] || ... || WV[0]) || 0b000000000000 || EINC || ENIN || EILL || INITD` (R33). -/
def status (s : State) : Word :=
  s.WV ++ 0#12 ++ BitVec.ofBool s.EINC ++ BitVec.ofBool s.ENIN ++ BitVec.ofBool s.EILL ++ BitVec.ofBool s.INITD

end Sys2Proof.Machine
end

