-- ==== Sys2Proof/Machine/Operands.lean ====
section
/-! DEFINITION. The operand forms: word indices (`30_encoding.md` R72) and the one way each word-indexed space is read
or written (`20_memory.md` R54, `10_state.md` R35). Every access moves one whole 32-bit word. -/

namespace Sys2Proof.Machine

/-- The word of `W` that `LDW i` selects: the 4-bit index unchanged, so `W[0]` to `W[15]` only (R72, R153). -/
def blockIndex (i : BitVec 4) : BitVec 6 := i.setWidth 6

/-- Read `H[i]`. -/
def readH (i : BitVec 3) (s : State) : Word := s.H[i.toNat]'(i.isLt)

/-- Read `W[j]`. -/
def readW (j : BitVec 6) (s : State) : Word := s.W[j.toNat]'(j.isLt)

/-- `W[j] <- x`. -/
def writeW (j : BitVec 6) (x : Word) (s : State) : State := { s with W := s.W.set j.toNat x j.isLt }

/-- `H <- x`, all eight words together (R54). -/
def writeH (x : Vector Word 8) (s : State) : State := { s with H := x }

/-- `v <- x`, all eight words together (R54). -/
def writeV (x : Vector Word 8) (s : State) : State := { s with v := x }

end Sys2Proof.Machine
end

