-- ==== Sys2Proof/Machine/Ops.lean ====
section
/-! DEFINITION. The shared operations: answering a command, taking an exception, accepting a command, moving the
sequencer, fetching the position, and the `Reset` event. -/

namespace Sys2Proof.Machine

/-- The response code on the port (`30_encoding.md` R80). -/
def respCode : Resp → BitVec 2
  | .ok => 0b00#2
  | .err .illegal => 0b01#2
  | .err .notInit => 0b10#2
  | .err .incomplete => 0b11#2

/-- The core answers the command being accepted with `(resp, rdata)` (`44_host_commands.md` R150). -/
def respond (r : Resp) (x : Word) (s : State) : State := { s with responses := ⟨r, x⟩ :: s.responses }

/-- Taking an exception, `raise E` (`60_exceptions.md` R206): the sticky flag of the cause is set, the response carries
its code and no data, and nothing else changes. Control goes nowhere, so there is no return from it either (R207): the
core is at once ready for the next command. -/
def raise (c : Cause) (s : State) : State := respond (.err c) 0#32 (setError c s)

/-- Acceptance (R150): a command takes effect only while `ph = IDLE`. While the sequencer is busy it is held: not
accepted, not answered, no effect. `s'` is the state its rule gives. -/
def accept (s s' : State) : Host.Outcome State Fault Refusal :=
  if s.ph = .idle then .next s' else .next s

/-- `(ph, t) <- (P, n)` (`00_scope.md` R12, `10_state.md` R27). -/
def moveTo (p : Phase) (n : BitVec 6) (s : State) : State := { s with ph := p, t := n }

/-- A micro-operation is executed exactly where the position names it (`45_sequencer_control.md` R170). `s'` is the
state its rule gives. -/
def atPosition (p : Phase) (n : BitVec 6) (s s' : State) : Host.Outcome State Fault Refusal :=
  if s.ph = p ∧ s.t = n then .next s' else .refused .notAtPosition

/-- The code of a phase (R27). -/
def phaseCode : Phase → BitVec 3
  | .idle => 0b000#3
  | .expand => 0b001#3
  | .loadv => 0b010#3
  | .round => 0b011#3
  | .fold => 0b100#3

/-- The phase of a code; `0b101` to `0b111` are the code of none (R27). -/
def phaseOfCode (c : BitVec 3) : Option Phase :=
  if c = 0b000#3 then some .idle
  else if c = 0b001#3 then some .expand
  else if c = 0b010#3 then some .loadv
  else if c = 0b011#3 then some .round
  else if c = 0b100#3 then some .fold
  else none

/-- The sequencer's position as a `SEQ` word, `ph[2:0] || t[5:0]` (R77): the core's only fetch. -/
def seqWord (s : State) : BitVec 9 := phaseCode s.ph ++ s.t

/-- The `Reset` event (`70_reset_and_hazards.md` R230): the whole state becomes the reset state of R40, with fresh
`undef` words. What the environment does next and the responses the host has received are not the core's and stay. -/
def resetCore (s : State) : State := State.resetFrom s.draws s.events s.responses

end Sys2Proof.Machine
end

