-- ==== Sys2Proof/Machine/Units.lean ====
section
/-! DEFINITION. The datapath units (`40_datapath_units.md`): pure functions of words, defined for all operands (R101),
writing no flag (R28). -/

namespace Sys2Proof.Machine

/-- `ADD32(x, y)`: addition modulo 2^32, the carry dropped (R90). -/
def add32 (x y : Word) : Word := x + y

/-- A sum of several words, a nesting of two-operand additions (R91: the nesting does not matter). -/
def sum32 (xs : List Word) : Word := xs.foldl add32 0#32

/-- `ROTR(x, n)`: rotate right (R92), by `n` modulo 32 where the source's formula has no meaning (D20). -/
def rotr (x : Word) (n : Nat) : Word := (x >>> (n % 32)) ||| (x <<< (32 - n % 32))

/-- `SHR(x, n)`: logical right shift (R93), for the amounts 0 to 31 that have a meaning (U8). -/
def shr (x : Word) (n : Fin 32) : Word := x >>> n.val

/-- `CH(e, f, g)`: choose (R95). -/
def ch (e f g : Word) : Word := (e &&& f) ^^^ (~~~e &&& g)

/-- `MAJ(a, b, c)`: majority (R96). -/
def maj (a b c : Word) : Word := (a &&& b) ^^^ (a &&& c) ^^^ (b &&& c)

/-- `BSIG0(a)` (R97). -/
def bsig0 (a : Word) : Word := rotr a 2 ^^^ rotr a 13 ^^^ rotr a 22

/-- `BSIG1(e)` (R98). -/
def bsig1 (e : Word) : Word := rotr e 6 ^^^ rotr e 11 ^^^ rotr e 25

/-- `SSIG0(x)` (R99): its third term is a shift. -/
def ssig0 (x : Word) : Word := rotr x 7 ^^^ rotr x 18 ^^^ shr x 3

/-- `SSIG1(x)` (R100): its third term is a shift. -/
def ssig1 (x : Word) : Word := rotr x 17 ^^^ rotr x 19 ^^^ shr x 10

end Sys2Proof.Machine
end

