-- ==== Sys2Proof/Machine/Compressor.lean ====
section
/-! DEFINITION. The compressor (`43_compressor.md`). -/

namespace Sys2Proof.Machine

/-- The round function of R131 on `v = (a, b, c, d, e, f, g, h)`, a constant word `k` and a schedule word `w`. All
eight new words are computed from the old ones. -/
def mix (v : Vector Word 8) (k w : Word) : Vector Word 8 :=
  let a := v[0]
  let b := v[1]
  let c := v[2]
  let d := v[3]
  let e := v[4]
  let f := v[5]
  let g := v[6]
  let h := v[7]
  let temp1 := sum32 [h, bsig1 e, ch e f g, k, w]
  let temp2 := sum32 [bsig0 a, maj a b c]
  #v[add32 temp1 temp2, a, b, c, add32 d temp1, e, f, g]

/-- The feed-forward of R134: word by word, no carry from one word into another. -/
def feedForward (H v : Vector Word 8) : Vector Word 8 := Vector.ofFn fun i => add32 H[i] v[i]

/-- `LOADV` (R130): `v <- H`. -/
def execLoadv (s : State) : Host.Outcome State Fault Refusal :=
  atPosition .loadv 0#6 s (moveTo .round 0#6 (writeV s.H s))

/-- The position after `RND t` (R132, R171). -/
def afterRnd (t : BitVec 6) (s : State) : State :=
  if t < 63#6 then moveTo .round (t + 1#6) s else moveTo .fold 0#6 s

/-- `RND t` (R132): round `t`, with the constant and the schedule word of the same index. -/
def execRnd (t : BitVec 6) (s : State) : Host.Outcome State Fault Refusal :=
  atPosition .round t s (afterRnd t (writeV (mix s.v (K t) (readW t s)) s))

/-- `FOLD` (R134): `H[i] <- H[i] + v[i]`, `WV <- 0`, and the sequencer is idle. -/
def execFold (s : State) : Host.Outcome State Fault Refusal :=
  atPosition .fold 0#6 s (moveTo .idle 0#6 (clearLoaded (writeH (feedForward s.H s.v) s)))

end Sys2Proof.Machine
end

