-- ==== Sys2Proof/Machine/Expander.lean ====
section
/-! DEFINITION. The message schedule expander (`42_schedule_expander.md`). -/

namespace Sys2Proof.Machine

/-- The recurrence of R121 over the words already there: `w[t-16] + s0 + w[t-7] + s1`. -/
def scheduleWord (w : Vector Word 64) (t : BitVec 6) : Word :=
  let rd (j : BitVec 6) : Word := w[j.toNat]'(j.isLt)
  sum32 [rd (t - 16#6), ssig0 (rd (t - 15#6)), rd (t - 7#6), ssig1 (rd (t - 2#6))]

/-- The position after `XPND t` (R122, R171). -/
def afterXpnd (t : BitVec 6) (s : State) : State :=
  if t < 63#6 then moveTo .expand (t + 1#6) s else moveTo .loadv 0#6 s

/-- `XPND t` (R122): one schedule word, for `t` in 16..63; a lower index has no meaning (R78). -/
def execXpnd (t : BitVec 6) (s : State) : Host.Outcome State Fault Refusal :=
  if 16#6 ≤ t then atPosition .expand t s (afterXpnd t (writeW t (scheduleWord s.W t) s))
  else .refused .unreachablePosition

end Sys2Proof.Machine
end

