-- ==== Sys2Proof/Machine/HostCommands.lean ====
section
/-! DEFINITION. The six host commands (`44_host_commands.md`). -/

namespace Sys2Proof.Machine

/-- `NOP` (R151): answers, and writes nothing. -/
def execNop (s : State) : Host.Outcome State Fault Refusal :=
  accept s (respond .ok 0#32 s)

/-- `INIT` (R152): `H[i] <- IV[i]` for `i` in 0..7, `INITD <- 1`. -/
def execInit (s : State) : Host.Outcome State Fault Refusal :=
  accept s (respond .ok 0#32 (setInitd (writeH (Vector.ofFn fun i => IV (BitVec.ofFin i)) s)))

/-- `LDW i, x` (R153): `W[i] <- x`, `WV[i] <- 1`. -/
def execLdw (i : BitVec 4) (x : Word) (s : State) : Host.Outcome State Fault Refusal :=
  accept s (respond .ok 0#32 (setLoaded i (writeW (blockIndex i) x s)))

/-- `START` (R154): refused while `H` is not initialised, then while a block word is missing (the priority of R205);
else the sequencer enters at `(EXPAND, 16)`. The response is given at acceptance. -/
def execStart (s : State) : Host.Outcome State Fault Refusal :=
  accept s
    (if s.INITD = false then raise .notInit s
    else if allLoaded s = false then raise .incomplete s
    else respond .ok 0#32 (moveTo .expand 16#6 s))

/-- `RDH i` (R155): refused while `H` is not initialised; else answers `H[i]` and writes nothing. -/
def execRdh (i : BitVec 3) (s : State) : Host.Outcome State Fault Refusal :=
  accept s (if s.INITD = false then raise .notInit s else respond .ok (readH i s) s)

/-- `RDS` (R156): answers `STATUS` of the state before the command and writes nothing. -/
def execRds (s : State) : Host.Outcome State Fault Refusal :=
  accept s (respond .ok (status s) s)

end Sys2Proof.Machine
end

