-- ==== Sys2Proof/Machine/Dispatch.lean ====
section
/-! DEFINITION. Every instruction's meaning, one arm each. -/

namespace Sys2Proof.Machine

def exec (i : Instr) (s : State) : Host.Outcome State Fault Refusal :=
  match i with
  | .nop => Sys2Proof.Machine.execNop s
  | .init => Sys2Proof.Machine.execInit s
  | .ldw n x => Sys2Proof.Machine.execLdw n x s
  | .start => Sys2Proof.Machine.execStart s
  | .rdh n => Sys2Proof.Machine.execRdh n s
  | .rds => Sys2Proof.Machine.execRds s
  | .xpnd t => Sys2Proof.Machine.execXpnd t s
  | .loadv => Sys2Proof.Machine.execLoadv s
  | .rnd t => Sys2Proof.Machine.execRnd t s
  | .fold => Sys2Proof.Machine.execFold s

end Sys2Proof.Machine
end

