-- ==== Sys2Proof/Machine/Control.lean ====
section
/-! DEFINITION. Which event happens next and what it runs (`00_scope.md` R10, `45_sequencer_control.md` R170). -/

namespace Sys2Proof.Machine

/-- The environment's `seqStep` at the head of the schedule is used up by the sequencer's turn; a command at the head is
held in its place (R150), and with nothing scheduled the sequencer steps all the same (R175). -/
def takeTurn (s : State) : State :=
  match s.events with
  | .seqStep :: es => { s with events := es }
  | _ => s

/-- `Cmd(c, d)` accepted by the idle core: decode first (R150), an illegal word raises `E_ILLEGAL` (R157). -/
def runCommand (c : BitVec 8) (d : Word) (s : State) : Host.Outcome State Fault Refusal :=
  match decode (.cmd c d) with
  | .ok i => exec i s
  | .error _ => .next (raise .illegal s)

/-- A step of the idle core: the next command if there is one; else nothing happens, for any length of time (R170). -/
def idleStep (s : State) : Host.Outcome State Fault Refusal :=
  match s.events with
  | .cmd c d :: es => runCommand c d { s with events := es }
  | _ => .next (takeTurn s)

/-- One event: `Reset` in any state (R230); else the micro-operation the position names (R170), or a command when it
names none (R150). A position without a meaning is refused (R78). -/
def advance (s : State) : Host.Outcome State Fault Refusal :=
  match s.events with
  | .reset :: es => .next (resetCore { s with events := es })
  | _ =>
    match decode (.seq (seqWord s)) with
    | .ok i => exec i (takeTurn s)
    | .error .sequencerIdle => idleStep s
    | .error _ => .refused .unreachablePosition

/-- Put a code where the next step takes its instruction from: a command at the head of the schedule of an idle core,
or a micro-operation as the sequencer's position with a turn for it at the head. A phase code of no phase cannot be put
anywhere (R78). -/
def placeCode (code : Code) (s : State) : State :=
  match code with
  | .cmd c d => { s with ph := .idle, t := 0#6, events := .cmd c d :: s.events }
  | .seq p =>
    match phaseOfCode (seqPhase p) with
    | some ph => { s with ph := ph, t := seqIndex p, events := .seqStep :: s.events }
    | none => s

end Sys2Proof.Machine
end

