-- ==== Sys2Proof/Machine/Step.lean ====
section
/-! DEFINITION. The step, and the placing of an instruction for the next step. -/

namespace Sys2Proof.Machine

/-- One step of the machine is one event of `00_scope.md` R10. -/
def step (s : State) : Host.Outcome State Fault Refusal := advance s

/-- The state with an opcode-table word placed where the next step fetches (log entry 15). -/
def State.withFetchWord (s : State) (nbits w : Nat) : State :=
  match codeOfTableWord nbits w with
  | some code => placeCode code s
  | none => s

end Sys2Proof.Machine
end

