-- ==== Sys2Proof/Machine/Block.lean ====
section
/-! DEFINITION. The block function as a whole (`42_schedule_expander.md` R121, `43_compressor.md` R135, R138), as pure
functions of words, and the sequencer's transition table (`45_sequencer_control.md` R171, R172) as functions of the
position. The machine itself does not use them: claims compare it with them. -/

namespace Sys2Proof.Machine

/-- The schedule memory after the first `n` steps of the expansion of a memory that holds the block words (R121). -/
def expandSteps (w : Vector Word 64) : Nat → Vector Word 64
  | 0 => w
  | n + 1 =>
    let t := BitVec.ofNat 6 (16 + n)
    (expandSteps w n).set t.toNat (scheduleWord (expandSteps w n) t) t.isLt

/-- `expand(M)` (R121): the 64 schedule words of a block. -/
def expand (M : Vector Word 16) : Vector Word 64 :=
  expandSteps (M ++ Vector.replicate 48 0#32) 48

/-- The working words after the first `n` rounds: `x_0 = S`, `x_(t+1) = round(x_t, K[t], w[t])` (R135). -/
def roundSteps (w : Vector Word 64) (S : Vector Word 8) : Nat → Vector Word 8
  | 0 => S
  | n + 1 =>
    let t := BitVec.ofNat 6 n
    mix (roundSteps w S n) (K t) (w[t.toNat]'(t.isLt))

/-- `compress(S, M)` (R135). -/
def compress (S : Vector Word 8) (M : Vector Word 16) : Vector Word 8 :=
  feedForward S (roundSteps (expand M) S 64)

/-- The chaining of R138: the state after a message's blocks, in order. -/
def compressAll (S : Vector Word 8) (Ms : List (Vector Word 16)) : Vector Word 8 := Ms.foldl compress S

/-- The block words in the schedule memory, `W[0..15]` (R120). -/
def blockWords (s : State) : Vector Word 16 := Vector.ofFn fun i => s.W[i.val]

/-- The position after a micro-operation, for every position R171 lists; the others have none (R78). -/
def nextPosition (ph : Phase) (t : BitVec 6) : Option (Phase × BitVec 6) :=
  match ph with
  | .idle => none
  | .expand => if t < 16#6 then none else if t = 63#6 then some (.loadv, 0#6) else some (.expand, t + 1#6)
  | .loadv => if t = 0#6 then some (.round, 0#6) else none
  | .round => if t = 63#6 then some (.fold, 0#6) else some (.round, t + 1#6)
  | .fold => if t = 0#6 then some (.idle, 0#6) else none

/-- How many sequencer steps are left until the core is idle (R172: 48 + 1 + 64 + 1 from `(EXPAND, 16)`). -/
def stepsLeft (ph : Phase) (t : BitVec 6) : Nat :=
  match ph with
  | .idle => 0
  | .expand => (64 - t.toNat) + 66
  | .loadv => 66
  | .round => (64 - t.toNat) + 1
  | .fold => 1

/-- `exec_cmd` of `44_host_commands.md` R158, case by case from top to bottom: the state after the command and its
response, for the state before it, the command word and the data word. The cases name bits of `c` and no instruction. -/
def execCmd (s : State) (c : BitVec 8) (d : Word) : State × Resp × Word :=
  let op := c.extractLsb' 4 4
  let idx := c.extractLsb' 0 4
  if c = 0x00#8 then (s, .ok, 0#32)
  else if c = 0x10#8 then ({ s with H := IVROM, INITD := true }, .ok, 0#32)
  else if op = 0x2#4 then
    ({ s with W := s.W.set idx.toNat d (Nat.lt_trans idx.isLt (by decide)), WV := s.WV ||| BitVec.twoPow 16 idx.toNat }, .ok, 0#32)
  else if c = 0x30#8 ∧ s.INITD = false then ({ s with ENIN := true }, .err .notInit, 0#32)
  else if c = 0x30#8 ∧ s.WV ≠ 0xFFFF#16 then ({ s with EINC := true }, .err .incomplete, 0#32)
  else if c = 0x30#8 then ({ s with ph := .expand, t := 16#6 }, .ok, 0#32)
  else if op = 0x4#4 ∧ idx.getLsbD 3 = false ∧ s.INITD = false then ({ s with ENIN := true }, .err .notInit, 0#32)
  else if op = 0x4#4 ∧ idx.getLsbD 3 = false then (s, .ok, readH (idx.extractLsb' 0 3) s)
  else if c = 0x50#8 then (s, .ok, status s)
  else ({ s with EILL := true }, .err .illegal, 0#32)

end Sys2Proof.Machine
end

