-- ==== Sys2Proof/Machine/Driver.lean ====
section
/-! DEFINITION. The host's side (`46_host_driver_protocol.md`, `20_memory.md` R50, R51, `30_encoding.md` R82): byte order,
padding, the commands a driver sends, the digest. These are the host's duty and no part of the core (`00_scope.md` R5). -/

namespace Sys2Proof.Machine

/-- Four bytes in message order as a word, the first the most significant (R50). -/
def wordOfBytes (b0 b1 b2 b3 : Byte) : Word := b0 ++ b1 ++ b2 ++ b3

/-- A word as four bytes, the most significant first (R51). -/
def bytesOfWord (x : Word) : List Byte :=
  [x.extractLsb' 24 8, x.extractLsb' 16 8, x.extractLsb' 8 8, x.extractLsb' 0 8]

/-- The number `z` of zero bytes for a message of `L` bytes (R185, R186). -/
def zeroBytes (L : Nat) : Nat := (64 - (L + 9) % 64) % 64

/-- The bit length as 8 bytes, most significant first (R185). -/
def lengthField (L : Nat) : List Byte :=
  let len := BitVec.ofNat 64 (8 * L)
  bytesOfWord (len.extractLsb' 32 32) ++ bytesOfWord (len.extractLsb' 0 32)

/-- `pad` (R185). A message of 2^61 bytes or more has no padding (R190, U4). -/
def pad (msg : List Byte) : Option (List Byte) :=
  if msg.length < 2 ^ 61 then
    some (msg ++ [0x80#8] ++ List.replicate (zeroBytes msg.length) 0#8 ++ lengthField msg.length)
  else none

/-- Block `k` of a padded message as its 16 words (R50, R187). -/
def blockOf (P : List Byte) (k : Nat) : Vector Word 16 :=
  Vector.ofFn fun i =>
    let n := 64 * k + 4 * i.val
    wordOfBytes (P.getD n 0) (P.getD (n + 1) 0) (P.getD (n + 2) 0) (P.getD (n + 3) 0)

/-- The consecutive 64-byte blocks of a padded message, in order (R187). -/
def blocksOf (P : List Byte) : List (Vector Word 16) := (List.range (P.length / 64)).map (blockOf P)

/-- The transfer that sends a command; a micro-operation is never sent (R70). -/
def issue (i : Instr) : List Event :=
  match encode i with
  | .cmd c d => [.cmd c d]
  | .seq _ => []

/-- `LDBLK` (R82): `LDW 0` to `LDW 15`, in index order. -/
def ldblk (M : Vector Word 16) : List Event :=
  (List.finRange 16).flatMap fun i => issue (.ldw (BitVec.ofFin i) M[i])

/-- `HASHBLK` (R82): `LDBLK`, then `START`. -/
def hashblk (M : Vector Word 16) : List Event := ldblk M ++ issue .start

/-- `RDDIGEST` (R82): `RDH 0` to `RDH 7`, in index order. -/
def rddigest : List Event := (List.finRange 8).flatMap fun i => issue (.rdh (BitVec.ofFin i))

/-- The commands of `sha256_on_core` (R187). -/
def driverEvents (msg : List Byte) : Option (List Event) :=
  (pad msg).map fun P => issue .init ++ (blocksOf P).flatMap hashblk ++ rddigest

/-- The digest of eight state words: each as four big-endian bytes, in order (R51, R188). -/
def digest (H : Vector Word 8) : List Byte := H.toList.flatMap bytesOfWord

/-- The hash as a pure function of the message: pad, chain the blocks from the initial state, serialise (R138, R187). -/
def sha256 (msg : List Byte) : Option (List Byte) :=
  (pad msg).map fun P => digest (compressAll IVROM (blocksOf P))

/-- Hex text: two lower-case digits a byte, the most significant nibble first (R189). -/
def hexText (bytes : List Byte) : String :=
  String.ofList (bytes.flatMap fun b => [Nat.digitChar (b.toNat / 16), Nat.digitChar (b.toNat % 16)])

end Sys2Proof.Machine
end

