-- ==== Sys2Proof/Safety.lean ====
section
/-! DEFINITION. The terms claims are stated in: the invariants of `10_state.md` R39, which words have a value, agreement of
two states, and what a frame leaves alone. -/

namespace Sys2Proof.Machine

/-- The index is legal for the phase (R39 items 2 to 4, the table of R27). -/
abbrev LegalPosition (s : State) : Prop :=
  (s.ph = .idle → s.t = 0#6) ∧ (s.ph = .loadv → s.t = 0#6) ∧ (s.ph = .fold → s.t = 0#6) ∧ (s.ph = .expand → 16#6 ≤ s.t)

/-- A running block was initialised and loaded in full (R39 item 5). -/
abbrev BlockReady (s : State) : Prop := s.ph ≠ .idle → s.INITD = true ∧ s.WV = 0xFFFF#16

/-- The invariants of R39 that speak of control state: items 2 to 5 (item 1 holds by the type of `ph`). -/
abbrev Invariants (s : State) : Prop := LegalPosition s ∧ BlockReady s

/-- Every `H[i]` has a value (R39 item 6). -/
abbrev HDefined (s : State) : Prop := s.INITD = true

/-- Every `v[i]` has a value (R39 item 7). -/
abbrev VDefined (s : State) : Prop := s.ph = .round ∨ s.ph = .fold

/-- `W[j]` has a value, as far as R39 item 7 says so. -/
abbrev WDefined (s : State) (j : BitVec 6) : Prop :=
  (j < 16#6 ∧ s.WV.getLsbD j.toNat = true) ∨ (s.ph = .expand ∧ j < s.t) ∨
    s.ph = .loadv ∨ s.ph = .round ∨ s.ph = .fold

/-- The event without the data word a command carries. -/
def Event.eraseData : Event → Event
  | .cmd c _ => .cmd c 0#32
  | e => e

/-- The sequencer position, the flags and what comes next are the same, data words aside (R16). -/
abbrev SameControl (s s' : State) : Prop :=
  s.ph = s'.ph ∧ s.t = s'.t ∧ s.INITD = s'.INITD ∧ s.WV = s'.WV ∧ s.EILL = s'.EILL ∧ s.ENIN = s'.ENIN ∧
    s.EINC = s'.EINC ∧ s.events.map Event.eraseData = s'.events.map Event.eraseData

/-- The two states agree on everything that has a value: they differ in `undef` words, and in how many free words have been
drawn, at most (R38, R39). -/
abbrev AgreeOnDefined (s s' : State) : Prop :=
  SameControl s s' ∧ s.events = s'.events ∧ s.responses = s'.responses ∧
    (HDefined s → s.H = s'.H) ∧ (VDefined s → s.v = s'.v) ∧ (∀ j, WDefined s j → readW j s = readW j s')

/-- The two states are the same but for the three sticky error flags and the answers given (R32). -/
abbrev SameButErrors (s s' : State) : Prop :=
  s.H = s'.H ∧ s.v = s'.v ∧ s.W = s'.W ∧ s.ph = s'.ph ∧ s.t = s'.t ∧ s.INITD = s'.INITD ∧ s.WV = s'.WV ∧
    s.events = s'.events ∧ s.draws = s'.draws

/-- The data registers are unchanged. -/
abbrev SameData (s s' : State) : Prop := s'.H = s.H ∧ s'.v = s.v ∧ s'.W = s.W

/-- The sequencer position is unchanged. -/
abbrev SamePosition (s s' : State) : Prop := s'.ph = s.ph ∧ s'.t = s.t

/-- The error flags are unchanged. -/
abbrev SameErrors (s s' : State) : Prop := s'.EILL = s.EILL ∧ s'.ENIN = s.ENIN ∧ s'.EINC = s.EINC

/-- All flags are unchanged. -/
abbrev SameFlags (s s' : State) : Prop := s'.INITD = s.INITD ∧ s'.WV = s.WV ∧ SameErrors s s'

/-- The schedule and the count of free words, the model's own fields, are unchanged. -/
abbrev SameSchedule (s s' : State) : Prop := s'.events = s.events ∧ s'.draws = s.draws

/-- Exactly one answer was given. -/
abbrev Answered (r : Resp) (x : Word) (s s' : State) : Prop := s'.responses = ⟨r, x⟩ :: s.responses

/-- The schedule after `n` steps of a busy core: each step uses up a `seqStep` at the head and leaves anything else. -/
def afterTurns : Nat → List Event → List Event
  | n + 1, .seqStep :: es => afterTurns n es
  | _, es => es

/-- `w` is the message schedule of the block `M` by the equations of `42_schedule_expander.md` R121. -/
abbrev IsSchedule (M : Vector Word 16) (w : Vector Word 64) : Prop :=
  (∀ i : Fin 16, w[i.val] = M[i]) ∧
    ∀ i : Fin 48, w[i.val + 16] = w[i.val] + ssig0 w[i.val + 1] + w[i.val + 9] + ssig1 w[i.val + 14]

end Sys2Proof.Machine
end

