-- ==== Sys2Proof/Certificates/Slice0/Obligations.lean ====
section
/-! DEFINITION. What is to be proved of the model. Each statement's docstring names the rule of spec/ it formalises. -/

open Sys2Proof Sys2Proof.Machine

/-! ### Encoding (`30_encoding.md`) -/

/-- R74, R77: decoding the code of a well-formed instruction gives it back, every operand at every value. -/
def Obligations.DecodeEncodeAgree : Prop :=
  ∀ i : Instr, i.wellFormed = true → decode (encode i) = .ok i

/-- R74, R77, R79: a code the decoder accepts is the code of the well-formed instruction it gives; of a command, the command
word is (the data word is no part of it). -/
def Obligations.EncodeDecodeAgree : Prop :=
  (∀ c d i, decode (.cmd c d) = .ok i → i.wellFormed = true ∧ ∃ d', encode i = .cmd c d') ∧
    (∀ p i, decode (.seq p) = .ok i → i.wellFormed = true ∧ encode i = .seq p)

/-- R74: the complete map of the command words; the words that mean a command are exactly those a row's mask and match select;
the six rows are disjoint and select 28 words. -/
def Obligations.CommandMap : Prop :=
  (∀ d, decode (.cmd 0x00#8 d) = .ok .nop) ∧
  (∀ d, decode (.cmd 0x10#8 d) = .ok .init) ∧
  (∀ (i : BitVec 4) (d : Word), decode (.cmd (0x20#8 + i.setWidth 8) d) = .ok (.ldw i d)) ∧
  (∀ d, decode (.cmd 0x30#8 d) = .ok .start) ∧
  (∀ (i : BitVec 3) (d : Word), decode (.cmd (0x40#8 + i.setWidth 8) d) = .ok (.rdh i)) ∧
  (∀ d, decode (.cmd 0x50#8 d) = .ok .rds) ∧
  (∀ (c : BitVec 8) (d : Word),
    (c ≠ 0x00#8 ∧ c ≠ 0x10#8 ∧ c.extractLsb' 4 4 ≠ 0x2#4 ∧ c ≠ 0x30#8 ∧
        ¬(c.extractLsb' 4 4 = 0x4#4 ∧ c.getLsbD 3 = false) ∧ c ≠ 0x50#8) →
      decode (.cmd c d) = .error .illegalCommand) ∧
  (∀ (c : BitVec 8) (d : Word),
    let n := [(0xFF#8, 0x00#8), (0xFF#8, 0x10#8), (0xF0#8, 0x20#8), (0xFF#8, 0x30#8), (0xF8#8, 0x40#8),
      (0xFF#8, 0x50#8)].countP (fun row => c &&& row.1 == row.2)
    n ≤ 1 ∧ (n = 1 ↔ decode (.cmd c d) ≠ .error .illegalCommand)) ∧
  (List.range 256).countP (fun c => decide (decode (.cmd (BitVec.ofNat 8 c) 0#32) ≠ .error .illegalCommand)) = 28

/-- R75, R157, R201: the illegal command words are exactly those of the table, 228 of them; an idle core refuses one with
`E_ILLEGAL` and no data, whatever `INITD`, `WV` and the data word are, and nothing changes but the flag `EILL`. -/
def Obligations.IllegalWordsRefused : Prop :=
  (∀ (c : BitVec 8) (d : Word),
    decode (.cmd c d) = .error .illegalCommand ↔
      (0x01#8 ≤ c ∧ c ≤ 0x0F#8) ∨ (0x11#8 ≤ c ∧ c ≤ 0x1F#8) ∨ (0x31#8 ≤ c ∧ c ≤ 0x3F#8) ∨
        (0x48#8 ≤ c ∧ c ≤ 0x4F#8) ∨ (0x51#8 ≤ c ∧ c ≤ 0x5F#8) ∨ 0x60#8 ≤ c) ∧
  (List.range 256).countP (fun c => decide (decode (.cmd (BitVec.ofNat 8 c) 0#32) = .error .illegalCommand)) = 228 ∧
  (∀ (s : State) (c : BitVec 8) (d : Word) (es : List Event),
    s.ph = .idle → s.t = 0#6 → s.events = .cmd c d :: es → decode (.cmd c d) = .error .illegalCommand →
      step s = .next { s with EILL := true, events := es, responses := ⟨.err .illegal, 0#32⟩ :: s.responses })

/-- R77: the positions and the micro-operations they name, and the word a state's position is, with the codes of R27. -/
def Obligations.PositionMap : Prop :=
  (∀ (ph : BitVec 3) (t : BitVec 6), seqPhase (ph ++ t) = ph ∧ seqIndex (ph ++ t) = t) ∧
  [Phase.idle, .expand, .loadv, .round, .fold].map phaseCode = [0b000#3, 0b001#3, 0b010#3, 0b011#3, 0b100#3] ∧
  decode (.seq 0b000000000#9) = .error .sequencerIdle ∧
  (∀ t : BitVec 6, 16#6 ≤ t → decode (.seq (0b001#3 ++ t)) = .ok (.xpnd t)) ∧
  decode (.seq 0b010000000#9) = .ok .loadv ∧
  (∀ t : BitVec 6, decode (.seq (0b011#3 ++ t)) = .ok (.rnd t)) ∧
  decode (.seq 0b100000000#9) = .ok .fold ∧
  (∀ s : State, seqWord s = phaseCode s.ph ++ s.t)

/-- R78: the positions without a meaning are exactly these, 397 of 512, beside 1 idle position, 48 of `XPND`, 1 of `LOADV`, 64
of `RND` and 1 of `FOLD`; a core at one of the 397 refuses to step, unless by `Reset`. -/
def Obligations.UnreachablePositionsRefused : Prop :=
  (∀ (ph : BitVec 3) (t : BitVec 6),
    decode (.seq (ph ++ t)) = .error .unreachablePosition ↔
      (0b101#3 ≤ ph ∨ ((ph = 0b000#3 ∨ ph = 0b010#3 ∨ ph = 0b100#3) ∧ t ≠ 0#6) ∨ (ph = 0b001#3 ∧ t < 16#6))) ∧
  (List.range 512).countP (fun p => decide (decode (.seq (BitVec.ofNat 9 p)) = .error .unreachablePosition)) = 397 ∧
  (List.range 512).countP (fun p => decide (decode (.seq (BitVec.ofNat 9 p)) = .error .sequencerIdle)) = 1 ∧
  (List.range 512).countP (fun p => match decode (.seq (BitVec.ofNat 9 p)) with | .ok (.xpnd _) => true | _ => false) = 48 ∧
  (List.range 512).countP (fun p => match decode (.seq (BitVec.ofNat 9 p)) with | .ok .loadv => true | _ => false) = 1 ∧
  (List.range 512).countP (fun p => match decode (.seq (BitVec.ofNat 9 p)) with | .ok (.rnd _) => true | _ => false) = 64 ∧
  (List.range 512).countP (fun p => match decode (.seq (BitVec.ofNat 9 p)) with | .ok .fold => true | _ => false) = 1 ∧
  (∀ s : State, decode (.seq (seqWord s)) = .error .unreachablePosition → (∀ es, s.events ≠ .reset :: es) →
    step s = .refused .unreachablePosition)

/-- R74, R77, R81 and the listings of `95_test_vectors.md` sections 6, 8 and 9: words written out from the tables decode to
what they stand for. -/
def Obligations.WordsFromTheTablesDecode : Prop :=
  decode (.cmd 0b00000000#8 0xdeadbeef#32) = .ok .nop ∧
  decode (.cmd 0b00010000#8 0#32) = .ok .init ∧
  decode (.cmd 0b00101111#8 0x00000018#32) = .ok (.ldw 15#4 0x00000018#32) ∧
  decode (.cmd 0b00110000#8 0#32) = .ok .start ∧
  decode (.cmd 0b01000111#8 0#32) = .ok (.rdh 7#3) ∧
  decode (.cmd 0b01010000#8 0#32) = .ok .rds ∧
  decode (.seq 0b001010001#9) = .ok (.xpnd 17#6) ∧
  decode (.seq 0b010000000#9) = .ok .loadv ∧
  decode (.seq 0b011000001#9) = .ok (.rnd 1#6) ∧
  decode (.seq 0b100000000#9) = .ok .fold ∧
  decode (.cmd 0b01001011#8 0#32) = .error .illegalCommand ∧
  decode (.seq 0b001001111#9) = .error .unreachablePosition

/-- R73: `wdata` is read by `LDW` only, as a whole word, and no other command's step depends on it; `rdata` is the word read
by a successful `RDH` or `RDS`, and zero for every other command and every refused one. -/
def Obligations.WdataReadByLdwOnly : Prop :=
  (∀ (i : BitVec 4) (d : Word), decode (.cmd (0b0010#4 ++ i) d) = .ok (.ldw i d)) ∧
  (∀ (s : State) (c : BitVec 8) (d d' : Word) (es : List Event), s.ph = .idle → c.extractLsb' 4 4 ≠ 0x2#4 →
    step { s with events := .cmd c d :: es } = step { s with events := .cmd c d' :: es }) ∧
  (∀ (s t : State) (c : BitVec 8) (d : Word) (es : List Event), s.ph = .idle → s.events = .cmd c d :: es → step s = .next t →
    ∃ r x, t.responses = ⟨r, x⟩ :: s.responses ∧
      (r ≠ .ok → x = 0#32) ∧ (c = 0x50#8 → r = .ok ∧ x = status s) ∧
      (∀ i : BitVec 3, c = 0x40#8 + i.setWidth 8 → r = .ok → x = readH i s) ∧
      ((c ≠ 0x50#8 ∧ ∀ i : BitVec 3, c ≠ 0x40#8 + i.setWidth 8) → x = 0#32))

/-! ### Host commands (`44_host_commands.md`) -/

/-- `44_host_commands.md` section 2: `NOP`, the word `0x00`, answers `OK` with no data and writes nothing. The clause for a
busy core is the model's choice (log entry 6): `exec` run by hand, where `44_host_commands.md` section 1 holds the command. -/
def Obligations.NopAnswersAndWritesNothing : Prop :=
  (∀ d, decode (.cmd 0x00#8 d) = .ok .nop) ∧
  ∀ s : State,
    (s.ph = .idle → exec .nop s = .next { s with responses := ⟨.ok, 0#32⟩ :: s.responses }) ∧
    (s.ph ≠ .idle → exec .nop s = .next s)

/-- `44_host_commands.md` section 2: `INIT`, the word `0x10`, loads the eight constants of R111 into `H` and sets `INITD`;
everything else is unchanged. The clause for a busy core is the model's choice (log entry 6): `exec` run by hand, where
`44_host_commands.md` section 1 holds the command. -/
def Obligations.InitLoadsTheInitialState : Prop :=
  (∀ d, decode (.cmd 0x10#8 d) = .ok .init) ∧
  ∀ s : State,
    (s.ph = .idle → ∃ t, exec .init s = .next t ∧
      t.H = #v[0x6a09e667#32, 0xbb67ae85#32, 0x3c6ef372#32, 0xa54ff53a#32, 0x510e527f#32, 0x9b05688c#32, 0x1f83d9ab#32,
        0x5be0cd19#32] ∧
      t.INITD = true ∧ Answered .ok 0#32 s t ∧
      t.v = s.v ∧ t.W = s.W ∧ t.WV = s.WV ∧ SamePosition s t ∧ SameErrors s t ∧ SameSchedule s t) ∧
    (s.ph ≠ .idle → exec .init s = .next s)

/-- `44_host_commands.md` section 2: `LDW i, x`, the word `0x20 + i` with `wdata = x`, writes `W[i]` and sets `WV[i]`; every
other word of `W`, every other bit of `WV` and everything else is unchanged. The word written is `blockIndex i`, which is `i`
itself. The clause for a busy core is the model's choice (log entry 6): `exec` run by hand, where `44_host_commands.md`
section 1 holds the command. -/
def Obligations.LdwStoresOneWord : Prop :=
  ∀ (i : BitVec 4) (x : Word) (s : State),
    decode (.cmd (0x20#8 + i.setWidth 8) x) = .ok (.ldw i x) ∧ (blockIndex i).toNat = i.toNat ∧
    (s.ph = .idle → ∃ t, exec (.ldw i x) s = .next t ∧
      readW (blockIndex i) t = x ∧ (∀ j, j ≠ blockIndex i → readW j t = readW j s) ∧
      t.WV.getLsbD i.toNat = true ∧ (∀ k, k ≠ i.toNat → t.WV.getLsbD k = s.WV.getLsbD k) ∧
      Answered .ok 0#32 s t ∧
      t.H = s.H ∧ t.v = s.v ∧ t.INITD = s.INITD ∧ SamePosition s t ∧ SameErrors s t ∧ SameSchedule s t) ∧
    (s.ph ≠ .idle → exec (.ldw i x) s = .next s)

/-- `44_host_commands.md` section 2: `START`, the word `0x30`, is refused with `E_NOT_INIT` while `INITD = 0`, then with
`E_INCOMPLETE` while a block word is missing, else it enters the sequencer at `(EXPAND, 16)`; each case changes what it names
and nothing else. The clause for a busy core is the model's choice (log entry 6): `exec` run by hand, where
`44_host_commands.md` section 1 holds the command. -/
def Obligations.StartEntersTheSequencer : Prop :=
  (∀ d, decode (.cmd 0x30#8 d) = .ok .start) ∧
  ∀ s : State,
    (s.ph = .idle → s.INITD = true → s.WV = 0xFFFF#16 →
      exec .start s = .next { s with ph := .expand, t := 16#6, responses := ⟨.ok, 0#32⟩ :: s.responses }) ∧
    (s.ph = .idle → s.INITD = false →
      exec .start s = .next { s with ENIN := true, responses := ⟨.err .notInit, 0#32⟩ :: s.responses }) ∧
    (s.ph = .idle → s.INITD = true → s.WV ≠ 0xFFFF#16 →
      exec .start s = .next { s with EINC := true, responses := ⟨.err .incomplete, 0#32⟩ :: s.responses }) ∧
    (s.ph ≠ .idle → exec .start s = .next s)

/-- `44_host_commands.md` section 2: `RDH i`, the word `0x40 + i`, answers `H[i]` and writes nothing; while `INITD = 0` it is
refused with `E_NOT_INIT` and gives no data. The clause for a busy core is the model's choice (log entry 6): `exec` run by
hand, where `44_host_commands.md` section 1 holds the command. -/
def Obligations.RdhReadsOneWord : Prop :=
  ∀ (i : BitVec 3) (s : State),
    (∀ d, decode (.cmd (0x40#8 + i.setWidth 8) d) = .ok (.rdh i)) ∧
    (s.ph = .idle → s.INITD = true →
      exec (.rdh i) s = .next { s with responses := ⟨.ok, s.H[i.toNat]'(i.isLt)⟩ :: s.responses }) ∧
    (s.ph = .idle → s.INITD = false →
      exec (.rdh i) s = .next { s with ENIN := true, responses := ⟨.err .notInit, 0#32⟩ :: s.responses }) ∧
    (s.ph ≠ .idle → exec (.rdh i) s = .next s)

/-- `44_host_commands.md` section 2: `RDS`, the word `0x50`, answers `STATUS` of the state before the command, and writes and
clears nothing. The clause for a busy core is the model's choice (log entry 6): `exec` run by hand, where
`44_host_commands.md` section 1 holds the command. -/
def Obligations.RdsReadsStatus : Prop :=
  (∀ d, decode (.cmd 0x50#8 d) = .ok .rds) ∧
  ∀ s : State,
    (s.ph = .idle → exec .rds s = .next { s with responses := ⟨.ok, status s⟩ :: s.responses }) ∧
    (s.ph ≠ .idle → exec .rds s = .next s)

/-- R202: `START` or `RDH` accepted while `INITD = 0` sets `ENIN`, answers `E_NOT_INIT` with no data, and does nothing else.
-/
def Obligations.NotInitIsRefused : Prop :=
  ∀ (i : Instr) (s : State), (i = .start ∨ ∃ n, i = .rdh n) → s.ph = .idle → s.INITD = false →
    exec i s = .next { s with ENIN := true, responses := ⟨.err .notInit, 0#32⟩ :: s.responses }

/-- R203: `START` accepted while `INITD = 1` and at least one `WV[i]` is 0 sets `EINC`, answers `E_INCOMPLETE` with no data,
and does nothing else; `WV` keeps its value. -/
def Obligations.IncompleteIsRefused : Prop :=
  ∀ (s : State) (i : BitVec 4), s.ph = .idle → s.INITD = true → s.WV.getLsbD i.toNat = false →
    exec .start s = .next { s with EINC := true, responses := ⟨.err .incomplete, 0#32⟩ :: s.responses }

/-- R205, R206: only a command the idle core accepts can be refused; it has one cause, chosen in the fixed order; it sets the
flag of that cause, answers the cause's code with no data, and changes nothing else. A `Reset` overrides everything: its step
answers nothing. -/
def Obligations.RefusalSetsOneFlag : Prop :=
  (∀ (s t : State) (e : Cause) (x : Word), step s = .next t → t.responses = ⟨.err e, x⟩ :: s.responses →
    s.ph = .idle ∧ ∃ c d es, s.events = .cmd c d :: es ∧
      t = { s with
        EILL := s.EILL || decide (e = .illegal), ENIN := s.ENIN || decide (e = .notInit),
        EINC := s.EINC || decide (e = .incomplete), events := es, responses := ⟨.err e, 0#32⟩ :: s.responses } ∧
      (e = .illegal ↔ decode (.cmd c d) = .error .illegalCommand) ∧
      (e = .notInit ↔ decode (.cmd c d) ≠ .error .illegalCommand ∧ s.INITD = false) ∧
      (e = .incomplete ↔ decode (.cmd c d) ≠ .error .illegalCommand ∧ s.INITD = true ∧ s.WV ≠ 0xFFFF#16)) ∧
  (∀ (s : State) (es : List Event), s.events = .reset :: es → step s = .next (resetCore { s with events := es }))

/-- A command step of the idle core is the function `exec_cmd` of the spec, with the response put on the port. The spec
derives that function from R151 to R157 (`44_host_commands.md`, section 4). -/
def Obligations.CommandStepIsExecCmd : Prop :=
  ∀ (s : State) (c : BitVec 8) (d : Word) (es : List Event),
    s.ph = .idle → s.t = 0#6 → s.events = .cmd c d :: es →
      let out := execCmd { s with events := es } c d
      step s = .next { out.1 with responses := ⟨out.2.1, out.2.2⟩ :: s.responses }

/-- `30_encoding.md` section 7 and R200 (`60_exceptions.md` section 1): the response codes and what each means: `OK` the
command was executed, `E_ILLEGAL` its word is illegal, `E_NOT_INIT` a `START` or `RDH` while `INITD = 0`, `E_INCOMPLETE` a
`START` while `INITD = 1` and some `WV[i] = 0`, and the sticky flag of each. When a command gets `OK` is the table of
`44_host_commands.md` section 4, which the spec marks derived. -/
def Obligations.ResponseTable : Prop :=
  [Resp.ok, .err .illegal, .err .notInit, .err .incomplete].map respCode = [0b00#2, 0b01#2, 0b10#2, 0b11#2] ∧
  ∀ (s t : State) (c : BitVec 8) (d : Word) (es : List Event),
    s.ph = .idle → s.events = .cmd c d :: es → step s = .next t →
      ∃ r x, t.responses = ⟨r, x⟩ :: s.responses ∧
        (r = .err .illegal ↔ decode (.cmd c d) = .error .illegalCommand) ∧
        (r = .err .notInit ↔ (decode (.cmd c d) = .ok .start ∨ ∃ i, decode (.cmd c d) = .ok (.rdh i)) ∧ s.INITD = false) ∧
        (r = .err .incomplete ↔ decode (.cmd c d) = .ok .start ∧ s.INITD = true ∧ ∃ k, k < 16 ∧ s.WV.getLsbD k = false) ∧
        (r = .ok ↔ ∃ i, decode (.cmd c d) = .ok i ∧
          (i = .start → s.INITD = true ∧ s.WV = 0xFFFF#16) ∧ (∀ n, i = .rdh n → s.INITD = true)) ∧
        (t.EILL = true ↔ s.EILL = true ∨ r = .err .illegal) ∧ (t.ENIN = true ↔ s.ENIN = true ∨ r = .err .notInit) ∧
        (t.EINC = true ↔ s.EINC = true ∨ r = .err .incomplete) ∧ (r ≠ .ok → x = 0#32)

/-- `44_host_commands.md` section 1, `45_sequencer_control.md` section 1: a command offered while the sequencer is busy is
held: it stays where it is and is not answered, and the sequencer takes the very step it takes with no command offered. -/
def Obligations.HeldCommandWaits : Prop :=
  ∀ (s : State) (c : BitVec 8) (d : Word) (es : List Event),
    LegalPosition s → s.ph ≠ .idle → s.events = .cmd c d :: es →
      ∃ t, step s = .next t ∧ t.events = s.events ∧ t.responses = s.responses ∧
        step { s with events := [] } = .next { t with events := [] }

/-! ### The step and the sequencer (`00_scope.md` R10, `45_sequencer_control.md`) -/

/-- When a code decodes to an instruction at the place the step takes it from, the step is that instruction's meaning: a
command of the idle core at the state without the command; the micro-operation of the position at the state that has used up a
`seqStep` at the head of the schedule, if there is one. -/
def Obligations.StepRunsDecodedInstruction : Prop :=
  (∀ (s : State) (c : BitVec 8) (d : Word) (es : List Event) (i : Instr),
    s.ph = .idle → s.t = 0#6 → s.events = .cmd c d :: es → decode (.cmd c d) = .ok i →
      step s = exec i { s with events := es }) ∧
  (∀ (s : State) (i : Instr), (∀ es, s.events ≠ .reset :: es) → decode (.seq (seqWord s)) = .ok i →
    step s = exec i (takeTurn s)) ∧
  (∀ (s : State) (es : List Event), s.events = .seqStep :: es → takeTurn s = { s with events := es }) ∧
  (∀ s : State, (∀ es, s.events ≠ .seqStep :: es) → takeTurn s = s)

/-- `45_sequencer_control.md` section 1: "When `ph = IDLE` the sequencer does nothing and changes nothing, for any length of
time". That the model takes a step there, which leaves the core as it is or uses up a `seqStep` at the head of the schedule,
is the model's choice (log entry 2): in the spec an idle core has no `SeqStep` event at all. -/
def Obligations.IdleSequencerDoesNothing : Prop :=
  ∀ s : State, s.ph = .idle → s.t = 0#6 →
    (s.events = [] → ∀ n, Host.Core.run core n s = .next s) ∧
    (∀ es, s.events = .seqStep :: es → step s = .next { s with events := es })

/-- `00_scope.md` section 5: every completed step is exactly one event: a `Reset`; a command accepted by the idle core and
answered once; a micro-operation of the busy core, which moves the position; or, in an idle core with neither a `Reset` nor a
command at the head of its schedule, nothing (the model's choice, log entry 2). -/
def Obligations.EveryStepIsOneEvent : Prop :=
  ∀ s t : State, step s = .next t →
    (∃ es, s.events = .reset :: es ∧ t = resetCore { s with events := es } ∧ t.events = es ∧ t.responses = s.responses) ∨
    (s.ph = .idle ∧ ∃ c d es r, s.events = .cmd c d :: es ∧ t.events = es ∧ t.responses = r :: s.responses ∧ t.v = s.v) ∨
    (s.ph ≠ .idle ∧ (∀ es, s.events ≠ .reset :: es) ∧ t.events = afterTurns 1 s.events ∧ t.responses = s.responses ∧
      (t.ph, t.t) ≠ (s.ph, s.t)) ∨
    (s.ph = .idle ∧ (∀ es, s.events ≠ .reset :: es) ∧ (∀ c d es, s.events ≠ .cmd c d :: es) ∧
      t = { s with events := afterTurns 1 s.events })

/-- R122: `XPND t`, the position `001tttttt`, computes one schedule word from four words below it, moves on, and changes
nothing else. -/
def Obligations.XpndComputesOneWord : Prop :=
  ∀ (t : BitVec 6) (s : State), 16#6 ≤ t → s.ph = .expand → s.t = t →
    decode (.seq (0b001#3 ++ t)) = .ok (.xpnd t) ∧
    ∃ u, exec (.xpnd t) s = .next u ∧
      readW t u = readW (t - 16#6) s + ssig0 (readW (t - 15#6) s) + readW (t - 7#6) s + ssig1 (readW (t - 2#6) s) ∧
      ((t - 16#6).toNat = t.toNat - 16 ∧ (t - 15#6).toNat = t.toNat - 15 ∧ (t - 7#6).toNat = t.toNat - 7 ∧
        (t - 2#6).toNat = t.toNat - 2) ∧
      (∀ j, j ≠ t → readW j u = readW j s) ∧
      (t < 63#6 → u.ph = .expand ∧ u.t = t + 1#6) ∧ (t = 63#6 → u.ph = .loadv ∧ u.t = 0#6) ∧
      u.H = s.H ∧ u.v = s.v ∧ SameFlags s u ∧ u.responses = s.responses ∧ SameSchedule s u

/-- R130: `LOADV`, the position `010000000`, copies `H` into `v`, moves to `(ROUND, 0)` and changes nothing else. -/
def Obligations.LoadvCopiesH : Prop :=
  decode (.seq 0b010000000#9) = .ok .loadv ∧
  ∀ s : State, s.ph = .loadv → s.t = 0#6 →
    exec .loadv s = .next { s with v := s.H, ph := .round, t := 0#6 }

/-- R131, R132: `RND t`, the position `011tttttt`, replaces the eight working words by the round function of them, `K[t]` and
`W[t]`, moves on, and changes nothing else. -/
def Obligations.RndMixesTheWorkingWords : Prop :=
  ∀ (t : BitVec 6) (s : State) (a b c d e f g h : Word),
    s.ph = .round → s.t = t → s.v = #v[a, b, c, d, e, f, g, h] →
      let temp1 := h + bsig1 e + ch e f g + K t + readW t s
      let temp2 := bsig0 a + maj a b c
      decode (.seq (0b011#3 ++ t)) = .ok (.rnd t) ∧
      ∃ u, exec (.rnd t) s = .next u ∧
        u.v = #v[temp1 + temp2, a, b, c, d + temp1, e, f, g] ∧
        (t < 63#6 → u.ph = .round ∧ u.t = t + 1#6) ∧ (t = 63#6 → u.ph = .fold ∧ u.t = 0#6) ∧
        u.H = s.H ∧ u.W = s.W ∧ SameFlags s u ∧ u.responses = s.responses ∧ SameSchedule s u

/-- `43_compressor.md` section 3: `FOLD`, the position `100000000`, adds each working word to its hash word, clears `WV`,
makes the sequencer idle, and changes nothing else. That `v` and `W` of the now idle core keep their values is log entry 17
(the rule says so, U2 lets an implementation differ). -/
def Obligations.FoldAddsBack : Prop :=
  decode (.seq 0b100000000#9) = .ok .fold ∧
  ∀ s : State, s.ph = .fold → s.t = 0#6 →
    ∃ u, exec .fold s = .next u ∧
      (∀ i : Fin 8, u.H[i] = s.H[i] + s.v[i]) ∧ u.WV = 0#16 ∧ u.ph = .idle ∧ u.t = 0#6 ∧ u.busy = false ∧
      u.v = s.v ∧ u.W = s.W ∧ u.INITD = s.INITD ∧ SameErrors s u ∧ u.responses = s.responses ∧ SameSchedule s u

/-- R171: the next position. A busy core that steps moves as the table says; an idle core leaves `(IDLE, 0)` only by an
accepted `START` with `INITD = 1` and `WV = 0xFFFF`; `Reset` moves any core to `(IDLE, 0)`. -/
def Obligations.SequencerTransitions : Prop :=
  ∀ s t : State, step s = .next t →
    (∀ es, s.events = .reset :: es → t.ph = .idle ∧ t.t = 0#6) ∧
    ((∀ es, s.events ≠ .reset :: es) →
      (s.ph ≠ .idle → nextPosition s.ph s.t = some (t.ph, t.t)) ∧
      (s.ph = .idle →
        ((t.ph = .expand ∧ t.t = 16#6 ∧ s.INITD = true ∧ s.WV = 0xFFFF#16 ∧ ∃ d es, s.events = .cmd 0x30#8 d :: es) ∨
          (t.ph = .idle ∧ t.t = s.t ∧
            ¬(s.INITD = true ∧ s.WV = 0xFFFF#16 ∧ ∃ d es, s.events = .cmd 0x30#8 d :: es)))))

/-- `45_sequencer_control.md` section 2, the spec's own inference "Termination": from `(EXPAND, 16)` there are 114 steps to
go; every step of a busy core, `Reset` apart, takes place and leaves one fewer; none are left exactly when the core is idle.
-/
def Obligations.BlockTerminates : Prop :=
  stepsLeft .expand 16#6 = 114 ∧
  (∀ ph t, stepsLeft ph t = 0 ↔ ph = .idle) ∧
  (∀ s : State, LegalPosition s → s.ph ≠ .idle → (∀ es, s.events ≠ .reset :: es) →
    ∃ t, step s = .next t ∧ LegalPosition t ∧ stepsLeft t.ph t.t + 1 = stepsLeft s.ph s.t)

/-! ### Whole blocks (`42_schedule_expander.md`, `43_compressor.md`) -/

/-- R121: `expand(M)` is the one vector of 64 words that satisfies the recurrence. -/
def Obligations.ExpandIsTheSchedule : Prop :=
  ∀ (M : Vector Word 16) (w : Vector Word 64), IsSchedule M w ↔ w = expand M

/-- `42_schedule_expander.md` section 3, the spec's own inference from R121 and R122: after the 48 steps from `(EXPAND, 16)`
the schedule memory is `expand` of the block words, which are still in place, and the position is `(LOADV, 0)`. -/
def Obligations.ExpansionRun : Prop :=
  ∀ s : State, s.ph = .expand → s.t = 16#6 → Event.reset ∉ s.events →
    ∃ t, Host.Core.run core 48 s = .next t ∧
      t.W = expand (blockWords s) ∧ blockWords t = blockWords s ∧ t.ph = .loadv ∧ t.t = 0#6 ∧
      t.H = s.H ∧ t.v = s.v ∧ SameFlags s t ∧ t.responses = s.responses ∧ t.events = afterTurns 48 s.events

/-- `43_compressor.md` section 4, the spec's own inference "What an accepted `START` does, seen as one step": an accepted
`START` is followed by exactly 114 steps of a busy core, after which `H` is `compress` of the state and the block, `WV` is
clear and the core idle; `INITD` and the error flags are unchanged. -/
def Obligations.StartCompressesTheBlock : Prop :=
  ∀ (s : State) (d : Word) (es : List Event),
    s.ph = .idle → s.t = 0#6 → s.INITD = true → s.WV = 0xFFFF#16 → s.events = .cmd 0x30#8 d :: es → Event.reset ∉ es →
      (∀ k, k < 114 → ∃ u, Host.Core.run core (k + 1) s = .next u ∧ u.busy = true ∧ Answered .ok 0#32 s u) ∧
      ∃ t, Host.Core.run core 115 s = .next t ∧
        t.H = compress s.H (blockWords s) ∧ t.WV = 0#16 ∧ t.ph = .idle ∧ t.t = 0#6 ∧ t.INITD = s.INITD ∧ SameErrors s t ∧
        Answered .ok 0#32 s t ∧ t.events = afterTurns 114 es

/-- `43_compressor.md` section 4, the spec's own inference from R137 and R152: blocks chain through `H` alone. An idle core,
whatever its registers and flags hold, that is given one `INIT` and then each block's words and its `START`, in order, ends
with the chained compression of the blocks from the initial state; every command was answered `OK`. -/
def Obligations.BlocksChainThroughH : Prop :=
  ∀ (Ms : List (Vector Word 16)) (s : State),
    s.ph = .idle → s.t = 0#6 → s.events = issue .init ++ Ms.flatMap hashblk →
      ∃ t, Host.Core.run core (1 + 131 * Ms.length) s = .next t ∧
        t.H = compressAll IVROM Ms ∧ t.ph = .idle ∧ t.t = 0#6 ∧ t.INITD = true ∧ SameErrors s t ∧ t.events = [] ∧
        t.responses = List.replicate (1 + 17 * Ms.length) ⟨.ok, 0#32⟩ ++ s.responses

/-- `46_host_driver_protocol.md` section 1, `sha256_on_core`: an idle core, whatever its registers and flags hold, that is
given the driver's commands for a message answers every one `OK` (the spec's own inference), the last eight with the words of
`H`; their bytes are the hash of the message, and `INITD` is set. -/
def Obligations.DriverReadsTheHash : Prop :=
  ∀ (msg : List Byte) (s : State),
    msg.length < 2 ^ 61 → s.ph = .idle → s.t = 0#6 → driverEvents msg = some s.events →
      let n := (msg.length + 8) / 64 + 1
      ∃ t, Host.Core.run core (1 + 131 * n + 8) s = .next t ∧
        t.responses = ((List.finRange 8).map fun i => ⟨.ok, t.H[i]⟩).reverse ++
          List.replicate (1 + 17 * n) ⟨.ok, 0#32⟩ ++ s.responses ∧
        sha256 msg = some (digest t.H) ∧ t.ph = .idle ∧ t.t = 0#6 ∧ t.INITD = true ∧ SameErrors s t ∧ t.events = []

/-! ### Reset (`70_reset_and_hazards.md`) -/

/-- `70_reset_and_hazards.md` section 1: `Reset` puts any core, a busy one too, into the reset state, and no other event
clears `INITD` or an error flag. The second clause says that nothing of the state before survives; that two cores with the
same count of free words draw the same `undef` words is the model's choice (log entries 4 and 5), not the spec's. No other
step draws one (`draws` is the model's own count). -/
def Obligations.ResetFromAnyState : Prop :=
  (∀ (s : State) (es : List Event), s.events = .reset :: es →
    ∃ t, step s = .next t ∧ t.ph = .idle ∧ t.t = 0#6 ∧ t.INITD = false ∧ t.WV = 0#16 ∧ t.EILL = false ∧ t.ENIN = false ∧
      t.EINC = false ∧ t.busy = false ∧ status t = 0#32 ∧ t.events = es ∧ t.responses = s.responses) ∧
  (∀ (s s' : State) (es : List Event), s.events = .reset :: es → s'.events = s.events → s'.responses = s.responses →
    s'.draws = s.draws → step s' = step s) ∧
  (∀ s t : State, step s = .next t → (∀ es, s.events ≠ .reset :: es) →
    (s.INITD = true → t.INITD = true) ∧ (s.EILL = true → t.EILL = true) ∧ (s.ENIN = true → t.ENIN = true) ∧
      (s.EINC = true → t.EINC = true) ∧ t.draws = s.draws)

/-- `10_state.md` section 9: the values the spec gives for the state after `Reset`. `H`, `v` and `W` are `undef` there, and
the statement is silent on them. -/
def Obligations.ResetStateValues : Prop :=
  State.reset.ph = .idle ∧ State.reset.t = 0#6 ∧ State.reset.INITD = false ∧ State.reset.WV = 0#16 ∧
    State.reset.EILL = false ∧ State.reset.ENIN = false ∧ State.reset.EINC = false ∧ status State.reset = 0#32 ∧
    State.reset.busy = false

/-- `70_reset_and_hazards.md` section 1: a command held when `Reset` abandons the block has not been accepted and has no
effect; it is accepted afterwards, against the reset state. -/
def Obligations.HeldCommandSurvivesReset : Prop :=
  ∀ (s : State) (c : BitVec 8) (d : Word) (es : List Event),
    s.ph ≠ .idle → s.events = .reset :: .cmd c d :: es →
      ∃ t u r, step s = .next t ∧ t.INITD = false ∧ t.WV = 0#16 ∧ t.ph = .idle ∧ t.responses = s.responses ∧
        t.events = .cmd c d :: es ∧ step t = .next u ∧ u.events = es ∧ u.responses = r :: s.responses

/-! ### Flags and views (`10_state.md`, `60_exceptions.md`) -/

/-- R29: `INITD` is set by `INIT` and cleared by `Reset`; no other event writes it; `START` and `RDH` are refused while it is
0, and `RDS` reads it. -/
def Obligations.InitdIsSetByInitOnly : Prop :=
  (∀ (s : State) (n : BitVec 3), s.ph = .idle → s.INITD = false →
    exec .start s = .next (raise .notInit s) ∧ exec (.rdh n) s = .next (raise .notInit s)) ∧
  (∀ s : State, (status s).getLsbD 0 = s.INITD) ∧
  (∀ s : State, s.ph = .idle → ∃ t, exec .init s = .next t ∧ t.INITD = true) ∧
  (∀ s t : State, step s = .next t →
    (∀ es, s.events = .reset :: es → t.INITD = false) ∧
    ((∀ es, s.events ≠ .reset :: es) → t.INITD ≠ s.INITD →
      t.INITD = true ∧ s.ph = .idle ∧ ∃ d es, s.events = .cmd 0x10#8 d :: es)) ∧
  State.reset.INITD = false

/-- R30, R31: `LDW i` sets `WV[i]`; `FOLD`, in the step that updates `H` and makes the core idle again, and `Reset` clear all
16 bits; no other event writes them. `START` is refused while one of them is 0, and `RDS` reads them. -/
def Obligations.BlockWordFlags : Prop :=
  State.reset.WV = 0#16 ∧
  (∀ (s : State) (i : BitVec 4), (status s).getLsbD (16 + i.toNat) = s.WV.getLsbD i.toNat ∧
    (s.ph = .idle → s.INITD = true → s.WV.getLsbD i.toNat = false → exec .start s = .next (raise .incomplete s))) ∧
  ∀ s t : State, step s = .next t →
    (∀ es, s.events = .reset :: es → t.WV = 0#16) ∧
    ((∀ es, s.events ≠ .reset :: es) →
      (s.ph = .fold → (∀ i : Fin 8, t.H[i] = s.H[i] + s.v[i]) ∧ t.WV = 0#16 ∧ t.ph = .idle) ∧
      (s.ph = .idle → ∀ (i : BitVec 4) d es, s.events = .cmd (0x20#8 + i.setWidth 8) d :: es →
        ∀ k, t.WV.getLsbD k = (s.WV.getLsbD k || decide (k = i.toNat))) ∧
      (t.WV ≠ s.WV → s.ph = .fold ∨
        (s.ph = .idle ∧ ∃ (i : BitVec 4) (d : Word) (es : List Event), s.events = .cmd (0x20#8 + i.setWidth 8) d :: es)))

/-- R32: a refused command sets the flag of its cause, nothing but `Reset` clears one, and the flags only record. Two states
that differ in nothing else (and in the answers given before) make the same step: the same state but for the flags, the same
response code, and the same data unless the command is `RDS`, which reads the flags. -/
def Obligations.ErrorFlagsOnlyRecord : Prop :=
  (State.reset.EILL = false ∧ State.reset.ENIN = false ∧ State.reset.EINC = false) ∧
  (∀ (s t : State) (x : Word), step s = .next t →
    (t.responses = ⟨.err .illegal, x⟩ :: s.responses → t.EILL = true) ∧
    (t.responses = ⟨.err .notInit, x⟩ :: s.responses → t.ENIN = true) ∧
    (t.responses = ⟨.err .incomplete, x⟩ :: s.responses → t.EINC = true) ∧
    ((∀ es, s.events ≠ .reset :: es) →
      (s.EILL = true → t.EILL = true) ∧ (s.ENIN = true → t.ENIN = true) ∧ (s.EINC = true → t.EINC = true))) ∧
  ∀ s s' t : State, SameButErrors s s' → step s = .next t →
    ∃ t', step s' = .next t' ∧ SameButErrors t t' ∧
      ((t.responses = s.responses ∧ t'.responses = s'.responses) ∨
        ∃ r x x', t.responses = ⟨r, x⟩ :: s.responses ∧ t'.responses = ⟨r, x'⟩ :: s'.responses ∧
          (x = x' ∨ ∃ d es, s.events = .cmd 0x50#8 d :: es))

/-- R33: the layout of `STATUS`, bit by bit. -/
def Obligations.StatusLayout : Prop :=
  ∀ s : State,
    (status s).getLsbD 0 = s.INITD ∧ (status s).getLsbD 1 = s.EILL ∧ (status s).getLsbD 2 = s.ENIN ∧
      (status s).getLsbD 3 = s.EINC ∧ (∀ k, 4 ≤ k → k ≤ 15 → (status s).getLsbD k = false) ∧
      (∀ i, i < 16 → (status s).getLsbD (16 + i) = s.WV.getLsbD i) ∧ status State.reset = 0#32

/-- R210: `busy` is 1 exactly when `ph != IDLE`; it rises at the acceptance of an error-free `START` and falls at `FOLD` or at
`Reset`, and at nothing else. -/
def Obligations.BusyRisesAtStartFallsAtFold : Prop :=
  (∀ s : State, s.busy = true ↔ s.ph ≠ .idle) ∧
  (∀ (s : State) (d : Word) (es : List Event),
    s.ph = .idle → s.t = 0#6 → s.INITD = true → s.WV = 0xFFFF#16 → s.events = .cmd 0x30#8 d :: es →
      ∃ t, step s = .next t ∧ t.busy = true ∧ Answered .ok 0#32 s t) ∧
  (∀ s : State, s.ph = .fold → s.t = 0#6 → ∃ t, step s = .next t ∧ t.busy = false) ∧
  (∀ (s : State) (es : List Event), s.events = .reset :: es → ∃ t, step s = .next t ∧ t.busy = false) ∧
  (∀ s t : State, step s = .next t → s.busy = false → t.busy = true →
    (∃ d es, s.events = .cmd 0x30#8 d :: es) ∧ Answered .ok 0#32 s t) ∧
  (∀ s t : State, step s = .next t → s.busy = true → t.busy = false →
    s.ph = .fold ∨ ∃ es, s.events = .reset :: es)

/-- R56: a successful `RDH` or `RDS` changes no state at all, so a second one returns the same word; a refused `RDH` does set
`ENIN`, and reads nothing. -/
def Obligations.ReadsHaveNoSideEffect : Prop :=
  ∀ (s : State) (i : Instr), ((∃ n, i = .rdh n) ∨ i = .rds) → s.ph = .idle →
    (s.INITD = true ∨ i = .rds → ∃ x,
      exec i s = .next { s with responses := ⟨.ok, x⟩ :: s.responses } ∧
      exec i { s with responses := ⟨.ok, x⟩ :: s.responses } =
        .next { s with responses := ⟨.ok, x⟩ :: ⟨.ok, x⟩ :: s.responses }) ∧
    (s.INITD = false → i ≠ .rds →
      exec i s = .next { s with ENIN := true, responses := ⟨.err .notInit, 0#32⟩ :: s.responses })

/-- `10_state.md` section 2, the table "Who reads and who writes each piece of state" (derived in the spec): who writes what.
-/
def Obligations.WhoWritesWhat : Prop :=
  ∀ (i : Instr) (s t : State), exec i s = .next t →
    (t.H ≠ s.H → i = .init ∨ i = .fold) ∧
    (t.v ≠ s.v → i = .loadv ∨ ∃ n, i = .rnd n) ∧
    (∀ j, readW j t ≠ readW j s → (j < 16#6 ∧ ∃ n x, i = .ldw n x ∧ j = blockIndex n) ∨ (16#6 ≤ j ∧ i = .xpnd j)) ∧
    ((t.ph ≠ s.ph ∨ t.t ≠ s.t) → i = .start ∨ (∃ n, i = .xpnd n) ∨ i = .loadv ∨ (∃ n, i = .rnd n) ∨ i = .fold) ∧
    (t.INITD ≠ s.INITD → i = .init) ∧
    (t.WV ≠ s.WV → (∃ n x, i = .ldw n x) ∨ i = .fold) ∧
    t.EILL = s.EILL ∧ (t.ENIN ≠ s.ENIN → i = .start ∨ ∃ n, i = .rdh n) ∧ (t.EINC ≠ s.EINC → i = .start) ∧
    SameSchedule s t

/-! ### Whole-machine rules -/

/-- `10_state.md` section 8, invariants 1 to 5 (derived in the spec): every step keeps the invariants, from every state that
has them, a `Reset` included. -/
def Obligations.EveryStepKeepsTheInvariants : Prop :=
  ∀ s t : State, Invariants s → step s = .next t → Invariants t

/-- `10_state.md` section 8: the invariants hold after reset. -/
def Obligations.ResetMeetsTheInvariants : Prop := Invariants State.reset

/-- `10_state.md` section 8, "no rule of this spec ever reads an `undef` word" (derived in the spec): no step ever reads an
`undef` word. Two states that agree on everything that has a value make the same step, with the same answer, and agree again
on everything that then has a value. -/
def Obligations.UndefIsNeverObserved : Prop :=
  ∀ s s' t : State, Invariants s → AgreeOnDefined s s' → step s = .next t →
    ∃ t', step s' = .next t' ∧ AgreeOnDefined t t'

/-- `00_scope.md` section 8, "No data-dependent control exists anywhere in the core" (derived in the spec). What `H`, `v`,
`W`, the free words and the data words of the commands hold has no influence on the position, the flags or which event comes
next. -/
def Obligations.ControlIgnoresData : Prop :=
  ∀ s s' t : State, SameControl s s' → step s = .next t → ∃ t', step s' = .next t' ∧ SameControl t t'

/-- `45_sequencer_control.md` section 2, "the core cannot hang" (derived in the spec): nothing stops this machine: at every
legal position the step takes place, whatever the registers hold. -/
def Obligations.LegalStepsAlwaysComplete : Prop :=
  ∀ s : State, LegalPosition s → ∃ t, step s = .next t

/-! ### Datapath units and ROMs (`40_datapath_units.md`, `41_constant_roms.md`) -/

/-- `40_datapath_units.md` section 1: addition is modulo 2^32. The second and third clauses are the sentence the spec marks
derived, "Such a sum is the integer sum of its terms reduced modulo 2^32 once", in any order. -/
def Obligations.SumsAreModulo : Prop :=
  (∀ x y : Word, (add32 x y).toNat = (x.toNat + y.toNat) % 2 ^ 32) ∧
  (∀ xs : List Word, (sum32 xs).toNat = (xs.map BitVec.toNat).sum % 2 ^ 32) ∧
  (∀ xs ys : List Word, xs.Perm ys → sum32 xs = sum32 ys)

/-- `40_datapath_units.md` section 2: `ROTR` by the source's formula for 1 to 31. The first clause is the line the spec marks
derived, "The second line above is the same function bit by bit"; the last two are the total extension the spec defines (log
entry 10). -/
def Obligations.RotrBitByBit : Prop :=
  (∀ (x : Word) (n j : Nat), j < 32 → (rotr x n).getLsbD j = x.getLsbD ((j + n) % 32)) ∧
  (∀ (x : Word) (n : Nat), 1 ≤ n → n ≤ 31 → rotr x n = (x >>> n) ||| (x <<< (32 - n))) ∧
  (∀ x : Word, rotr x 0 = x) ∧ (∀ (x : Word) (n : Nat), rotr x n = rotr x (n % 32))

/-- R93: `SHR` as a division, and bit by bit. -/
def Obligations.ShrBitByBit : Prop :=
  (∀ (x : Word) (n : Fin 32), (shr x n).toNat = x.toNat / 2 ^ n.val) ∧
  (∀ (x : Word) (n : Fin 32) (j : Nat), (shr x n).getLsbD j = (decide (j + n.val ≤ 31) && x.getLsbD (j + n.val)))

/-- `40_datapath_units.md` section 4: `CH` bit by bit and its corner cases. The two other forms are the sentence the spec
marks derived, "replacing the `xor` between them by `or` gives the same word; also `CH(e, f, g) = g xor (e and (f xor g))`".
-/
def Obligations.ChChooses : Prop :=
  ∀ e f g : Word,
    (∀ j, (ch e f g).getLsbD j = if e.getLsbD j then f.getLsbD j else g.getLsbD j) ∧
    ch 0#32 f g = g ∧ ch 0xffffffff#32 f g = f ∧ ch e f f = f ∧
    ch e f g = (e &&& f) ||| (~~~e &&& g) ∧ ch e f g = g ^^^ (e &&& (f ^^^ g))

/-- `40_datapath_units.md` section 4: `MAJ` bit by bit, its corner cases and its symmetry. The last clause is the sentence the
spec marks derived, "Replacing both `xor` by `or` gives the same word". -/
def Obligations.MajTakesTheMajority : Prop :=
  ∀ a b c : Word,
    (∀ j, (maj a b c).getLsbD j = decide (2 ≤ (a.getLsbD j).toNat + (b.getLsbD j).toNat + (c.getLsbD j).toNat)) ∧
    maj a a c = a ∧ maj 0#32 b c = b &&& c ∧ maj 0xffffffff#32 b c = b ||| c ∧
    maj a b c = maj b a c ∧ maj a b c = maj a c b ∧ maj a b c = (a &&& b) ||| (a &&& c) ||| (b &&& c)

/-- R97 to R100 with R92 and R93: each sigma function bit by bit. -/
def Obligations.SigmasBitByBit : Prop :=
  ∀ (x : Word) (j : Nat), j < 32 →
    (bsig0 x).getLsbD j = (x.getLsbD ((j + 2) % 32) ^^ x.getLsbD ((j + 13) % 32) ^^ x.getLsbD ((j + 22) % 32)) ∧
    (bsig1 x).getLsbD j = (x.getLsbD ((j + 6) % 32) ^^ x.getLsbD ((j + 11) % 32) ^^ x.getLsbD ((j + 25) % 32)) ∧
    (ssig0 x).getLsbD j = (x.getLsbD ((j + 7) % 32) ^^ x.getLsbD ((j + 18) % 32) ^^ x.getLsbD (j + 3)) ∧
    (ssig1 x).getLsbD j = (x.getLsbD ((j + 17) % 32) ^^ x.getLsbD ((j + 19) % 32) ^^ x.getLsbD (j + 10))

/-- `41_constant_roms.md` section 3, items 1 and 2 of the evidence for the tables (general knowledge in the spec; log entry
11): `IV[i]` is the first 32 bits of the fraction of the square root of the `i`-th prime, `K[t]` those of the cube root of the
`t`-th prime. -/
def Obligations.RomsAreTheRootFractions : Prop :=
  (∀ i : Fin 8, IVROM[i].toNat =
    Nat.sqrt ((#v[2, 3, 5, 7, 11, 13, 17, 19] : Vector Nat 8)[i] * 2 ^ 64) % 2 ^ 32) ∧
  ∀ t : Fin 64, ∃ r : Nat,
    let p := (#v[2, 3, 5, 7, 11, 13, 17, 19, 23, 29, 31, 37, 41, 43, 47, 53, 59, 61, 67, 71, 73, 79, 83, 89, 97, 101, 103, 107,
      109, 113, 127, 131, 137, 139, 149, 151, 157, 163, 167, 173, 179, 181, 191, 193, 197, 199, 211, 223, 227, 229, 233, 239,
      241, 251, 257, 263, 269, 271, 277, 281, 283, 293, 307, 311] : Vector Nat 64)[t]
    r ^ 3 ≤ p * 2 ^ 96 ∧ p * 2 ^ 96 < (r + 1) ^ 3 ∧ KROM[t].toNat = r % 2 ^ 32

/-- `95_test_vectors.md` section 1 (`41_constant_roms.md` section 3, item 3): the two digests the source gives, of the empty
message and of "abc". -/
def Obligations.KnownDigests : Prop :=
  sha256 [] = some (digest #v[0xe3b0c442#32, 0x98fc1c14#32, 0x9afbf4c8#32, 0x996fb924#32, 0x27ae41e4#32, 0x649b934c#32,
    0xa495991b#32, 0x7852b855#32]) ∧
  sha256 [0x61#8, 0x62#8, 0x63#8] = some (digest #v[0xba7816bf#32, 0x8f01cfea#32, 0x414140de#32, 0x5dae2223#32, 0xb00361a3#32,
    0x96177a9c#32, 0xb410ff61#32, 0xf20015ad#32])

/-! ### The host's side (`20_memory.md`, `46_host_driver_protocol.md`) -/

/-- R50, R51, R188: big-endian in both directions: a block word is the integer of its four bytes; a digest has 32 bytes, and
its byte `4i + j` is bits `31 - 8j` down to `24 - 8j` of `H[i]`. -/
def Obligations.BigEndianWords : Prop :=
  (∀ (P : List Byte) (k : Nat) (i : Fin 16),
    (blockOf P k)[i].toNat =
      (P.getD (64 * k + 4 * i.val) 0).toNat * 2 ^ 24 + (P.getD (64 * k + 4 * i.val + 1) 0).toNat * 2 ^ 16 +
        (P.getD (64 * k + 4 * i.val + 2) 0).toNat * 2 ^ 8 + (P.getD (64 * k + 4 * i.val + 3) 0).toNat) ∧
  (∀ H : Vector Word 8, (digest H).length = 32 ∧
    ∀ (i : Fin 8) (j : Fin 4), (digest H)[4 * i.val + j.val]? = some (H[i].extractLsb' (24 - 8 * j.val) 8))

/-- `46_host_driver_protocol.md` section 1: what padding gives, for every message of less than 2^61 bytes: the message,
`0x80`, the least number of zero bytes that makes the bit length 448 modulo 512, and the 64-bit big-endian bit length. The
block count is the sentence the spec marks derived, "The number of blocks is `n = (L + 1 + z + 8) / 64 = floor((L + 8) / 64) +
1`". -/
def Obligations.PaddingPostconditions : Prop :=
  ∀ msg : List Byte, msg.length < 2 ^ 61 →
    ∃ P z, pad msg = some P ∧ z = (64 - (msg.length + 9) % 64) % 64 ∧
      8 * (msg.length + 1 + z) % 512 = 448 ∧ (∀ y, y < z → 8 * (msg.length + 1 + y) % 512 ≠ 448) ∧
      P.length = msg.length + 1 + z + 8 ∧ P.length % 64 = 0 ∧ 0 < P.length ∧ P.length / 64 = (msg.length + 8) / 64 + 1 ∧
      P.take msg.length = msg ∧ P[msg.length]? = some 0x80#8 ∧
      (∀ k, k < z → P[msg.length + 1 + k]? = some 0x00#8) ∧
      (P.drop (P.length - 8)).foldl (fun n b => n * 2 ^ 8 + b.toNat) 0 = 8 * msg.length
end

