-- ==== Sys2Proof/Laws/Decode.lean ====
section
/-! SUPPORT. What the decoder can answer, said once. -/

namespace Sys2Proof

/-- A full mask selects one word. -/
theorem selects_full {p c : BitVec 8} : selects 0xFF#8 p c = true ↔ c = p := by
  have : c &&& 0xFF#8 = c := BitVec.and_allOnes
  simp [selects, this]

/-- The row of `LDW`: the sixteen words `0010iiii`. -/
theorem selects_ldw : ∀ c : BitVec 8, selects 0xF0#8 0x20#8 c = true ↔ 0b0010#4 ++ c.extractLsb' 0 4 = c := by decide

/-- The row of `RDH`: the eight words `01000iii`. -/
theorem selects_rdh : ∀ c : BitVec 8, selects 0xF8#8 0x40#8 c = true ↔ 0b01000#5 ++ c.extractLsb' 0 3 = c := by decide

/-- An accepted command word is one of the 28 of R74, and the instruction is its row's. -/
theorem decode_cmd_ok {c : BitVec 8} {d : Word} {i : Instr} (h : decode (.cmd c d) = .ok i) :
    (c = 0x00#8 ∧ i = .nop) ∨ (c = 0x10#8 ∧ i = .init) ∨ (∃ n : BitVec 4, c = 0b0010#4 ++ n ∧ i = .ldw n d) ∨
      (c = 0x30#8 ∧ i = .start) ∨ (∃ n : BitVec 3, c = 0b01000#5 ++ n ∧ i = .rdh n) ∨ (c = 0x50#8 ∧ i = .rds) := by
  simp only [decode, decodeCmd, selects_full, selects_ldw, selects_rdh] at h
  repeat' split at h
  all_goals cases h
  · exact .inl ⟨‹_›, rfl⟩
  · exact .inr (.inl ⟨‹_›, rfl⟩)
  · exact .inr (.inr (.inl ⟨_, Eq.symm ‹_›, rfl⟩))
  · exact .inr (.inr (.inr (.inl ⟨‹_›, rfl⟩)))
  · exact .inr (.inr (.inr (.inr (.inl ⟨_, Eq.symm ‹_›, rfl⟩))))
  · exact .inr (.inr (.inr (.inr (.inr ⟨‹_›, rfl⟩))))

/-- The only rejection of a command word (R75). -/
theorem decode_cmd_error {c : BitVec 8} {d : Word} {r : Reject} (h : decode (.cmd c d) = .error r) :
    r = .illegalCommand := by
  simp only [decode, decodeCmd] at h
  repeat' split at h
  all_goals cases h
  rfl

/-- The data word reaches an instruction as `LDW`'s operand and in no other way (R73). -/
theorem decode_cmd_data (c : BitVec 8) (d : Word) : decode (.cmd c d) =
    match decode (.cmd c 0#32) with
    | .ok (.ldw n _) => .ok (.ldw n d)
    | r => r := by
  simp only [decode, decodeCmd]
  repeat' split
  all_goals simp_all

theorem seqPhase_append (a : BitVec 3) (b : BitVec 6) : seqPhase (a ++ b) = a := by
  revert a b
  decide

theorem seqIndex_append (a : BitVec 3) (b : BitVec 6) : seqIndex (a ++ b) = b := by
  revert a b
  decide

/-- A position is its two fields, the phase in the high bits (R77). -/
theorem seq_fields (p : BitVec 9) : seqPhase p ++ seqIndex p = p := by
  revert p
  decide

end Sys2Proof
end

