-- ==== Sys2Proof/Laws/State.lean ====
section
/-! SUPPORT. One lemma for each field of each update of the state, so that no later proof unfolds a record update. -/

namespace Sys2Proof.Machine

section respond

@[simp] theorem respond_H (r : Resp) (x : Word) (s : State) : (respond r x s).H = s.H := rfl
@[simp] theorem respond_v (r : Resp) (x : Word) (s : State) : (respond r x s).v = s.v := rfl
@[simp] theorem respond_W (r : Resp) (x : Word) (s : State) : (respond r x s).W = s.W := rfl
@[simp] theorem respond_ph (r : Resp) (x : Word) (s : State) : (respond r x s).ph = s.ph := rfl
@[simp] theorem respond_t (r : Resp) (x : Word) (s : State) : (respond r x s).t = s.t := rfl
@[simp] theorem respond_INITD (r : Resp) (x : Word) (s : State) : (respond r x s).INITD = s.INITD := rfl
@[simp] theorem respond_WV (r : Resp) (x : Word) (s : State) : (respond r x s).WV = s.WV := rfl
@[simp] theorem respond_EILL (r : Resp) (x : Word) (s : State) : (respond r x s).EILL = s.EILL := rfl
@[simp] theorem respond_ENIN (r : Resp) (x : Word) (s : State) : (respond r x s).ENIN = s.ENIN := rfl
@[simp] theorem respond_EINC (r : Resp) (x : Word) (s : State) : (respond r x s).EINC = s.EINC := rfl
@[simp] theorem respond_events (r : Resp) (x : Word) (s : State) : (respond r x s).events = s.events := rfl
@[simp] theorem respond_responses (r : Resp) (x : Word) (s : State) : (respond r x s).responses = ⟨r, x⟩ :: s.responses := rfl
@[simp] theorem respond_draws (r : Resp) (x : Word) (s : State) : (respond r x s).draws = s.draws := rfl

end respond

section setInitd

@[simp] theorem setInitd_H (s : State) : (setInitd s).H = s.H := rfl
@[simp] theorem setInitd_v (s : State) : (setInitd s).v = s.v := rfl
@[simp] theorem setInitd_W (s : State) : (setInitd s).W = s.W := rfl
@[simp] theorem setInitd_ph (s : State) : (setInitd s).ph = s.ph := rfl
@[simp] theorem setInitd_t (s : State) : (setInitd s).t = s.t := rfl
@[simp] theorem setInitd_INITD (s : State) : (setInitd s).INITD = true := rfl
@[simp] theorem setInitd_WV (s : State) : (setInitd s).WV = s.WV := rfl
@[simp] theorem setInitd_EILL (s : State) : (setInitd s).EILL = s.EILL := rfl
@[simp] theorem setInitd_ENIN (s : State) : (setInitd s).ENIN = s.ENIN := rfl
@[simp] theorem setInitd_EINC (s : State) : (setInitd s).EINC = s.EINC := rfl
@[simp] theorem setInitd_events (s : State) : (setInitd s).events = s.events := rfl
@[simp] theorem setInitd_responses (s : State) : (setInitd s).responses = s.responses := rfl
@[simp] theorem setInitd_draws (s : State) : (setInitd s).draws = s.draws := rfl

end setInitd

section setLoaded

@[simp] theorem setLoaded_H (i : BitVec 4) (s : State) : (setLoaded i s).H = s.H := rfl
@[simp] theorem setLoaded_v (i : BitVec 4) (s : State) : (setLoaded i s).v = s.v := rfl
@[simp] theorem setLoaded_W (i : BitVec 4) (s : State) : (setLoaded i s).W = s.W := rfl
@[simp] theorem setLoaded_ph (i : BitVec 4) (s : State) : (setLoaded i s).ph = s.ph := rfl
@[simp] theorem setLoaded_t (i : BitVec 4) (s : State) : (setLoaded i s).t = s.t := rfl
@[simp] theorem setLoaded_INITD (i : BitVec 4) (s : State) : (setLoaded i s).INITD = s.INITD := rfl
@[simp] theorem setLoaded_WV (i : BitVec 4) (s : State) : (setLoaded i s).WV = s.WV ||| BitVec.twoPow 16 i.toNat := rfl
@[simp] theorem setLoaded_EILL (i : BitVec 4) (s : State) : (setLoaded i s).EILL = s.EILL := rfl
@[simp] theorem setLoaded_ENIN (i : BitVec 4) (s : State) : (setLoaded i s).ENIN = s.ENIN := rfl
@[simp] theorem setLoaded_EINC (i : BitVec 4) (s : State) : (setLoaded i s).EINC = s.EINC := rfl
@[simp] theorem setLoaded_events (i : BitVec 4) (s : State) : (setLoaded i s).events = s.events := rfl
@[simp] theorem setLoaded_responses (i : BitVec 4) (s : State) : (setLoaded i s).responses = s.responses := rfl
@[simp] theorem setLoaded_draws (i : BitVec 4) (s : State) : (setLoaded i s).draws = s.draws := rfl

end setLoaded

section clearLoaded

@[simp] theorem clearLoaded_H (s : State) : (clearLoaded s).H = s.H := rfl
@[simp] theorem clearLoaded_v (s : State) : (clearLoaded s).v = s.v := rfl
@[simp] theorem clearLoaded_W (s : State) : (clearLoaded s).W = s.W := rfl
@[simp] theorem clearLoaded_ph (s : State) : (clearLoaded s).ph = s.ph := rfl
@[simp] theorem clearLoaded_t (s : State) : (clearLoaded s).t = s.t := rfl
@[simp] theorem clearLoaded_INITD (s : State) : (clearLoaded s).INITD = s.INITD := rfl
@[simp] theorem clearLoaded_WV (s : State) : (clearLoaded s).WV = 0#16 := rfl
@[simp] theorem clearLoaded_EILL (s : State) : (clearLoaded s).EILL = s.EILL := rfl
@[simp] theorem clearLoaded_ENIN (s : State) : (clearLoaded s).ENIN = s.ENIN := rfl
@[simp] theorem clearLoaded_EINC (s : State) : (clearLoaded s).EINC = s.EINC := rfl
@[simp] theorem clearLoaded_events (s : State) : (clearLoaded s).events = s.events := rfl
@[simp] theorem clearLoaded_responses (s : State) : (clearLoaded s).responses = s.responses := rfl
@[simp] theorem clearLoaded_draws (s : State) : (clearLoaded s).draws = s.draws := rfl

end clearLoaded

section writeH

@[simp] theorem writeH_H (x : Vector Word 8) (s : State) : (writeH x s).H = x := rfl
@[simp] theorem writeH_v (x : Vector Word 8) (s : State) : (writeH x s).v = s.v := rfl
@[simp] theorem writeH_W (x : Vector Word 8) (s : State) : (writeH x s).W = s.W := rfl
@[simp] theorem writeH_ph (x : Vector Word 8) (s : State) : (writeH x s).ph = s.ph := rfl
@[simp] theorem writeH_t (x : Vector Word 8) (s : State) : (writeH x s).t = s.t := rfl
@[simp] theorem writeH_INITD (x : Vector Word 8) (s : State) : (writeH x s).INITD = s.INITD := rfl
@[simp] theorem writeH_WV (x : Vector Word 8) (s : State) : (writeH x s).WV = s.WV := rfl
@[simp] theorem writeH_EILL (x : Vector Word 8) (s : State) : (writeH x s).EILL = s.EILL := rfl
@[simp] theorem writeH_ENIN (x : Vector Word 8) (s : State) : (writeH x s).ENIN = s.ENIN := rfl
@[simp] theorem writeH_EINC (x : Vector Word 8) (s : State) : (writeH x s).EINC = s.EINC := rfl
@[simp] theorem writeH_events (x : Vector Word 8) (s : State) : (writeH x s).events = s.events := rfl
@[simp] theorem writeH_responses (x : Vector Word 8) (s : State) : (writeH x s).responses = s.responses := rfl
@[simp] theorem writeH_draws (x : Vector Word 8) (s : State) : (writeH x s).draws = s.draws := rfl

end writeH

section writeV

@[simp] theorem writeV_H (x : Vector Word 8) (s : State) : (writeV x s).H = s.H := rfl
@[simp] theorem writeV_v (x : Vector Word 8) (s : State) : (writeV x s).v = x := rfl
@[simp] theorem writeV_W (x : Vector Word 8) (s : State) : (writeV x s).W = s.W := rfl
@[simp] theorem writeV_ph (x : Vector Word 8) (s : State) : (writeV x s).ph = s.ph := rfl
@[simp] theorem writeV_t (x : Vector Word 8) (s : State) : (writeV x s).t = s.t := rfl
@[simp] theorem writeV_INITD (x : Vector Word 8) (s : State) : (writeV x s).INITD = s.INITD := rfl
@[simp] theorem writeV_WV (x : Vector Word 8) (s : State) : (writeV x s).WV = s.WV := rfl
@[simp] theorem writeV_EILL (x : Vector Word 8) (s : State) : (writeV x s).EILL = s.EILL := rfl
@[simp] theorem writeV_ENIN (x : Vector Word 8) (s : State) : (writeV x s).ENIN = s.ENIN := rfl
@[simp] theorem writeV_EINC (x : Vector Word 8) (s : State) : (writeV x s).EINC = s.EINC := rfl
@[simp] theorem writeV_events (x : Vector Word 8) (s : State) : (writeV x s).events = s.events := rfl
@[simp] theorem writeV_responses (x : Vector Word 8) (s : State) : (writeV x s).responses = s.responses := rfl
@[simp] theorem writeV_draws (x : Vector Word 8) (s : State) : (writeV x s).draws = s.draws := rfl

end writeV

section writeW

@[simp] theorem writeW_H (j : BitVec 6) (x : Word) (s : State) : (writeW j x s).H = s.H := rfl
@[simp] theorem writeW_v (j : BitVec 6) (x : Word) (s : State) : (writeW j x s).v = s.v := rfl
@[simp] theorem writeW_W (j : BitVec 6) (x : Word) (s : State) : (writeW j x s).W = s.W.set j.toNat x j.isLt := rfl
@[simp] theorem writeW_ph (j : BitVec 6) (x : Word) (s : State) : (writeW j x s).ph = s.ph := rfl
@[simp] theorem writeW_t (j : BitVec 6) (x : Word) (s : State) : (writeW j x s).t = s.t := rfl
@[simp] theorem writeW_INITD (j : BitVec 6) (x : Word) (s : State) : (writeW j x s).INITD = s.INITD := rfl
@[simp] theorem writeW_WV (j : BitVec 6) (x : Word) (s : State) : (writeW j x s).WV = s.WV := rfl
@[simp] theorem writeW_EILL (j : BitVec 6) (x : Word) (s : State) : (writeW j x s).EILL = s.EILL := rfl
@[simp] theorem writeW_ENIN (j : BitVec 6) (x : Word) (s : State) : (writeW j x s).ENIN = s.ENIN := rfl
@[simp] theorem writeW_EINC (j : BitVec 6) (x : Word) (s : State) : (writeW j x s).EINC = s.EINC := rfl
@[simp] theorem writeW_events (j : BitVec 6) (x : Word) (s : State) : (writeW j x s).events = s.events := rfl
@[simp] theorem writeW_responses (j : BitVec 6) (x : Word) (s : State) : (writeW j x s).responses = s.responses := rfl
@[simp] theorem writeW_draws (j : BitVec 6) (x : Word) (s : State) : (writeW j x s).draws = s.draws := rfl

end writeW

section moveTo

@[simp] theorem moveTo_H (p : Phase) (n : BitVec 6) (s : State) : (moveTo p n s).H = s.H := rfl
@[simp] theorem moveTo_v (p : Phase) (n : BitVec 6) (s : State) : (moveTo p n s).v = s.v := rfl
@[simp] theorem moveTo_W (p : Phase) (n : BitVec 6) (s : State) : (moveTo p n s).W = s.W := rfl
@[simp] theorem moveTo_ph (p : Phase) (n : BitVec 6) (s : State) : (moveTo p n s).ph = p := rfl
@[simp] theorem moveTo_t (p : Phase) (n : BitVec 6) (s : State) : (moveTo p n s).t = n := rfl
@[simp] theorem moveTo_INITD (p : Phase) (n : BitVec 6) (s : State) : (moveTo p n s).INITD = s.INITD := rfl
@[simp] theorem moveTo_WV (p : Phase) (n : BitVec 6) (s : State) : (moveTo p n s).WV = s.WV := rfl
@[simp] theorem moveTo_EILL (p : Phase) (n : BitVec 6) (s : State) : (moveTo p n s).EILL = s.EILL := rfl
@[simp] theorem moveTo_ENIN (p : Phase) (n : BitVec 6) (s : State) : (moveTo p n s).ENIN = s.ENIN := rfl
@[simp] theorem moveTo_EINC (p : Phase) (n : BitVec 6) (s : State) : (moveTo p n s).EINC = s.EINC := rfl
@[simp] theorem moveTo_events (p : Phase) (n : BitVec 6) (s : State) : (moveTo p n s).events = s.events := rfl
@[simp] theorem moveTo_responses (p : Phase) (n : BitVec 6) (s : State) : (moveTo p n s).responses = s.responses := rfl
@[simp] theorem moveTo_draws (p : Phase) (n : BitVec 6) (s : State) : (moveTo p n s).draws = s.draws := rfl

end moveTo

section setError

@[simp] theorem setError_H (c : Cause) (s : State) : (setError c s).H = s.H := by cases c <;> rfl
@[simp] theorem setError_v (c : Cause) (s : State) : (setError c s).v = s.v := by cases c <;> rfl
@[simp] theorem setError_W (c : Cause) (s : State) : (setError c s).W = s.W := by cases c <;> rfl
@[simp] theorem setError_ph (c : Cause) (s : State) : (setError c s).ph = s.ph := by cases c <;> rfl
@[simp] theorem setError_t (c : Cause) (s : State) : (setError c s).t = s.t := by cases c <;> rfl
@[simp] theorem setError_INITD (c : Cause) (s : State) : (setError c s).INITD = s.INITD := by cases c <;> rfl
@[simp] theorem setError_WV (c : Cause) (s : State) : (setError c s).WV = s.WV := by cases c <;> rfl
@[simp] theorem setError_EILL (c : Cause) (s : State) : (setError c s).EILL = (s.EILL || decide (c = .illegal)) := by cases c <;> simp [setError]
@[simp] theorem setError_ENIN (c : Cause) (s : State) : (setError c s).ENIN = (s.ENIN || decide (c = .notInit)) := by cases c <;> simp [setError]
@[simp] theorem setError_EINC (c : Cause) (s : State) : (setError c s).EINC = (s.EINC || decide (c = .incomplete)) := by cases c <;> simp [setError]
@[simp] theorem setError_events (c : Cause) (s : State) : (setError c s).events = s.events := by cases c <;> rfl
@[simp] theorem setError_responses (c : Cause) (s : State) : (setError c s).responses = s.responses := by cases c <;> rfl
@[simp] theorem setError_draws (c : Cause) (s : State) : (setError c s).draws = s.draws := by cases c <;> rfl

end setError

section raise

@[simp] theorem raise_H (c : Cause) (s : State) : (raise c s).H = s.H := by simp [raise]
@[simp] theorem raise_v (c : Cause) (s : State) : (raise c s).v = s.v := by simp [raise]
@[simp] theorem raise_W (c : Cause) (s : State) : (raise c s).W = s.W := by simp [raise]
@[simp] theorem raise_ph (c : Cause) (s : State) : (raise c s).ph = s.ph := by simp [raise]
@[simp] theorem raise_t (c : Cause) (s : State) : (raise c s).t = s.t := by simp [raise]
@[simp] theorem raise_INITD (c : Cause) (s : State) : (raise c s).INITD = s.INITD := by simp [raise]
@[simp] theorem raise_WV (c : Cause) (s : State) : (raise c s).WV = s.WV := by simp [raise]
@[simp] theorem raise_EILL (c : Cause) (s : State) : (raise c s).EILL = (s.EILL || decide (c = .illegal)) := by simp [raise]
@[simp] theorem raise_ENIN (c : Cause) (s : State) : (raise c s).ENIN = (s.ENIN || decide (c = .notInit)) := by simp [raise]
@[simp] theorem raise_EINC (c : Cause) (s : State) : (raise c s).EINC = (s.EINC || decide (c = .incomplete)) := by simp [raise]
@[simp] theorem raise_events (c : Cause) (s : State) : (raise c s).events = s.events := by simp [raise]
@[simp] theorem raise_responses (c : Cause) (s : State) : (raise c s).responses = ⟨.err c, 0#32⟩ :: s.responses := by simp [raise]
@[simp] theorem raise_draws (c : Cause) (s : State) : (raise c s).draws = s.draws := by simp [raise]

end raise

section takeTurn

@[simp] theorem takeTurn_H (s : State) : (takeTurn s).H = s.H := by unfold takeTurn; split <;> rfl
@[simp] theorem takeTurn_v (s : State) : (takeTurn s).v = s.v := by unfold takeTurn; split <;> rfl
@[simp] theorem takeTurn_W (s : State) : (takeTurn s).W = s.W := by unfold takeTurn; split <;> rfl
@[simp] theorem takeTurn_ph (s : State) : (takeTurn s).ph = s.ph := by unfold takeTurn; split <;> rfl
@[simp] theorem takeTurn_t (s : State) : (takeTurn s).t = s.t := by unfold takeTurn; split <;> rfl
@[simp] theorem takeTurn_INITD (s : State) : (takeTurn s).INITD = s.INITD := by unfold takeTurn; split <;> rfl
@[simp] theorem takeTurn_WV (s : State) : (takeTurn s).WV = s.WV := by unfold takeTurn; split <;> rfl
@[simp] theorem takeTurn_EILL (s : State) : (takeTurn s).EILL = s.EILL := by unfold takeTurn; split <;> rfl
@[simp] theorem takeTurn_ENIN (s : State) : (takeTurn s).ENIN = s.ENIN := by unfold takeTurn; split <;> rfl
@[simp] theorem takeTurn_EINC (s : State) : (takeTurn s).EINC = s.EINC := by unfold takeTurn; split <;> rfl
@[simp] theorem takeTurn_responses (s : State) : (takeTurn s).responses = s.responses := by unfold takeTurn; split <;> rfl
@[simp] theorem takeTurn_draws (s : State) : (takeTurn s).draws = s.draws := by unfold takeTurn; split <;> rfl

end takeTurn

section resetCore

@[simp] theorem resetCore_ph (s : State) : (resetCore s).ph = .idle := rfl
@[simp] theorem resetCore_t (s : State) : (resetCore s).t = 0#6 := rfl
@[simp] theorem resetCore_INITD (s : State) : (resetCore s).INITD = false := rfl
@[simp] theorem resetCore_WV (s : State) : (resetCore s).WV = 0#16 := rfl
@[simp] theorem resetCore_EILL (s : State) : (resetCore s).EILL = false := rfl
@[simp] theorem resetCore_ENIN (s : State) : (resetCore s).ENIN = false := rfl
@[simp] theorem resetCore_EINC (s : State) : (resetCore s).EINC = false := rfl
@[simp] theorem resetCore_events (s : State) : (resetCore s).events = s.events := rfl
@[simp] theorem resetCore_responses (s : State) : (resetCore s).responses = s.responses := rfl
@[simp] theorem resetCore_draws (s : State) : (resetCore s).draws = s.draws + 80 := rfl

end resetCore

end Sys2Proof.Machine
end

