-- ==== Sys2Proof/Laws/Ops.lean ====
section
/-! SUPPORT. What each shared operation can do, said once: the provers cite these and do not unfold the operations. -/

namespace Sys2Proof.Machine

/-! ### Word-indexed spaces -/

@[simp] theorem readW_writeW_same (j : BitVec 6) (x : Word) (s : State) : readW j (writeW j x s) = x := by
  simp [readW]

theorem readW_writeW_other {j k : BitVec 6} (x : Word) (s : State) (h : k ≠ j) :
    readW k (writeW j x s) = readW k s := by
  have : j.toNat ≠ k.toNat := fun e => h (BitVec.eq_of_toNat_eq e.symm)
  simp [readW, this]

/-- `readW` depends on `W` alone. -/
theorem readW_congr {s s' : State} (h : s.W = s'.W) (j : BitVec 6) : readW j s = readW j s' := by
  simp [readW, h]

/-- `readH` depends on `H` alone. -/
theorem readH_congr {s s' : State} (h : s.H = s'.H) (i : BitVec 3) : readH i s = readH i s' := by
  simp [readH, h]

/-- Reading every index of `W` tells all of `W`. -/
theorem W_ext {s s' : State} (h : ∀ j, readW j s = readW j s') : s.W = s'.W := by
  apply Vector.ext
  intro i hi
  have := h (BitVec.ofNat 6 i)
  simpa [readW, Nat.mod_eq_of_lt hi] using this

theorem blockIndex_toNat (i : BitVec 4) : (blockIndex i).toNat = i.toNat := by
  have := i.isLt
  simp [blockIndex, BitVec.toNat_setWidth]
  omega

/-- `LDW` reaches only `W[0..15]` (R153). -/
theorem blockIndex_lt (i : BitVec 4) : blockIndex i < 16#6 := by
  have := i.isLt
  rw [BitVec.lt_def, blockIndex_toNat]
  simpa using this

/-! ### Acceptance and position -/

/-- An accepted command gives the state of its rule; a held one nothing at all. -/
theorem accept_cases {s s' u : State} (h : accept s s' = .next u) : (s.ph = .idle ∧ u = s') ∨ (s.ph ≠ .idle ∧ u = s) := by
  unfold accept at h
  split at h
  next hp => exact .inl ⟨hp, by cases h; rfl⟩
  next hp => exact .inr ⟨hp, by cases h; rfl⟩

theorem accept_idle {s s' : State} (h : s.ph = .idle) : accept s s' = .next s' := if_pos h

theorem accept_busy {s s' : State} (h : s.ph ≠ .idle) : accept s s' = .next s := if_neg h

/-- A micro-operation that completes did so at the position that names it. -/
theorem atPosition_next {p : Phase} {n : BitVec 6} {s s' u : State} (h : atPosition p n s s' = .next u) :
    s.ph = p ∧ s.t = n ∧ u = s' := by
  unfold atPosition at h
  split at h
  next hp => exact ⟨hp.1, hp.2, by cases h; rfl⟩
  next => cases h

theorem atPosition_here {p : Phase} {n : BitVec 6} {s s' : State} (hp : s.ph = p) (ht : s.t = n) :
    atPosition p n s s' = .next s' := if_pos ⟨hp, ht⟩

/-! ### Sequencer moves -/

/-- `XPND t` moves on to `t + 1`, or after 63 to `LOADV`, and changes nothing else (R122). -/
theorem afterXpnd_cases (t : BitVec 6) (s : State) :
    (t < 63#6 ∧ afterXpnd t s = moveTo .expand (t + 1#6) s) ∨ (t = 63#6 ∧ afterXpnd t s = moveTo .loadv 0#6 s) := by
  by_cases h : t < 63#6
  · exact .inl ⟨h, if_pos h⟩
  · exact .inr ⟨by bv_omega, if_neg h⟩

/-- `RND t` moves on to `t + 1`, or after 63 to `FOLD`, and changes nothing else (R132). -/
theorem afterRnd_cases (t : BitVec 6) (s : State) :
    (t < 63#6 ∧ afterRnd t s = moveTo .round (t + 1#6) s) ∨ (t = 63#6 ∧ afterRnd t s = moveTo .fold 0#6 s) := by
  by_cases h : t < 63#6
  · exact .inl ⟨h, if_pos h⟩
  · exact .inr ⟨by bv_omega, if_neg h⟩

theorem takeTurn_events_cases (s : State) :
    (∃ es, s.events = .seqStep :: es ∧ (takeTurn s).events = es) ∨
      ((∀ es, s.events ≠ .seqStep :: es) ∧ takeTurn s = s) := by
  unfold takeTurn
  split
  next es h => exact .inl ⟨es, h, rfl⟩
  next h => exact .inr ⟨fun es he => h es he, rfl⟩

/-! ### Fetching the position -/

/-- What the decoder makes of a state's position, phase by phase (R77, R78). -/
theorem decode_seqWord (s : State) : decode (.seq (seqWord s)) =
    match s.ph with
    | .idle => if s.t = 0#6 then .error .sequencerIdle else .error .unreachablePosition
    | .expand => if 16#6 ≤ s.t then .ok (.xpnd s.t) else .error .unreachablePosition
    | .loadv => if s.t = 0#6 then .ok .loadv else .error .unreachablePosition
    | .round => .ok (.rnd s.t)
    | .fold => if s.t = 0#6 then .ok .fold else .error .unreachablePosition := by
  cases h : s.ph <;> simp [decode, decodeSeq, seqWord, seqPhase_append, seqIndex_append, phaseCode, h]

end Sys2Proof.Machine
end

