-- ==== Sys2Proof/Laws/PerInstr.lean ====
section
/-! SUPPORT. A fact about every instruction as syntax, one lemma for each constructor: its code is selected by its own row
of the opcode table (`30_encoding.md` R74, R77; spec/opcode_table.json, columns match and mask). -/

namespace Sys2Proof.Laws.TableRow

/-- A row of the opcode table: the format, and which bits must have which values. -/
inductive Row where
  | cmd (mask pattern : BitVec 8)
  | seq (mask pattern : BitVec 9)
  deriving DecidableEq, Repr

/-- The table, instruction by instruction. -/
def row : Instr → Row
  | .nop => .cmd 0xFF#8 0x00#8
  | .init => .cmd 0xFF#8 0x10#8
  | .ldw _ _ => .cmd 0xF0#8 0x20#8
  | .start => .cmd 0xFF#8 0x30#8
  | .rdh _ => .cmd 0xF8#8 0x40#8
  | .rds => .cmd 0xFF#8 0x50#8
  | .xpnd _ => .seq 0x1C0#9 0x040#9
  | .loadv => .seq 0x1FF#9 0x080#9
  | .rnd _ => .seq 0x1C0#9 0x0C0#9
  | .fold => .seq 0x1FF#9 0x100#9

/-- A row selects a code of its format whose masked bits equal the row's pattern. -/
def Row.selects : Row → Code → Prop
  | .cmd mask pattern, .cmd c _ => c &&& mask = pattern
  | .seq mask pattern, .seq p => p &&& mask = pattern
  | _, _ => False

/-- The code of a well-formed instruction is selected by the instruction's own row. -/
def Statement (i : Instr) : Prop := i.wellFormed = true → (row i).selects (encode i)

theorem nop : Statement .nop := fun _ => rfl

theorem init : Statement .init := fun _ => rfl

theorem ldw (i : BitVec 4) (x : Word) : Statement (.ldw i x) := fun _ =>
  (by decide : ∀ i : BitVec 4, (0b0010#4 ++ i) &&& 0xF0#8 = 0x20#8) i

theorem start : Statement .start := fun _ => rfl

theorem rdh (i : BitVec 3) : Statement (.rdh i) := fun _ =>
  (by decide : ∀ i : BitVec 3, (0b01000#5 ++ i) &&& 0xF8#8 = 0x40#8) i

theorem rds : Statement .rds := fun _ => rfl

theorem xpnd (t : BitVec 6) : Statement (.xpnd t) := fun _ =>
  (by decide : ∀ t : BitVec 6, (0b001#3 ++ t) &&& 0x1C0#9 = 0x040#9) t

theorem loadv : Statement .loadv := fun _ => rfl

theorem rnd (t : BitVec 6) : Statement (.rnd t) := fun _ =>
  (by decide : ∀ t : BitVec 6, (0b011#3 ++ t) &&& 0x1C0#9 = 0x0C0#9) t

theorem fold : Statement .fold := fun _ => rfl

end Sys2Proof.Laws.TableRow
end

