-- ==== Sys2Proof/Laws/Step.lean ====
section
/-! SUPPORT. What one step can do, said once: which event it is, and what state that event leaves. -/

namespace Sys2Proof.Machine

/-! ### Commands of the idle core -/

/-- Everything a command accepted by the idle core can do: its row of R74, and the state its rule gives. -/
theorem runCommand_next_cases {s t : State} {c : BitVec 8} {d : Word} (hp : s.ph = .idle)
    (h : runCommand c d s = .next t) :
    (c = 0x00#8 ∧ decode (.cmd c d) = .ok .nop ∧ t = respond .ok 0#32 s) ∨
    (c = 0x10#8 ∧ decode (.cmd c d) = .ok .init ∧
      t = respond .ok 0#32 (setInitd (writeH (Vector.ofFn fun i => IV (BitVec.ofFin i)) s))) ∨
    (∃ n : BitVec 4, c = 0b0010#4 ++ n ∧ decode (.cmd c d) = .ok (.ldw n d) ∧
      t = respond .ok 0#32 (setLoaded n (writeW (blockIndex n) d s))) ∨
    (c = 0x30#8 ∧ decode (.cmd c d) = .ok .start ∧
      ((s.INITD = false ∧ t = raise .notInit s) ∨
        (s.INITD = true ∧ s.WV ≠ 0xFFFF#16 ∧ t = raise .incomplete s) ∨
        (s.INITD = true ∧ s.WV = 0xFFFF#16 ∧ t = respond .ok 0#32 (moveTo .expand 16#6 s)))) ∨
    (∃ n : BitVec 3, c = 0b01000#5 ++ n ∧ decode (.cmd c d) = .ok (.rdh n) ∧
      ((s.INITD = false ∧ t = raise .notInit s) ∨ (s.INITD = true ∧ t = respond .ok (readH n s) s))) ∨
    (c = 0x50#8 ∧ decode (.cmd c d) = .ok .rds ∧ t = respond .ok (status s) s) ∨
    (decode (.cmd c d) = .error .illegalCommand ∧ t = raise .illegal s) := by
  unfold runCommand at h
  cases hd : decode (.cmd c d) with
  | error r =>
    rw [hd] at h
    rw [decode_cmd_error hd]
    cases h
    simp
  | ok i =>
    rw [hd] at h
    have accepted {s' : State} (ha : accept s s' = .next t) : t = s' := by
      rw [accept_idle hp] at ha
      cases ha
      rfl
    rcases decode_cmd_ok hd with ⟨rfl, rfl⟩ | ⟨rfl, rfl⟩ | ⟨n, rfl, rfl⟩ | ⟨rfl, rfl⟩ | ⟨n, rfl, rfl⟩ | ⟨rfl, rfl⟩
    · exact .inl ⟨rfl, rfl, accepted h⟩
    · exact .inr (.inl ⟨rfl, rfl, accepted h⟩)
    · exact .inr (.inr (.inl ⟨n, rfl, rfl, accepted h⟩))
    · refine .inr (.inr (.inr (.inl ⟨rfl, rfl, ?_⟩)))
      have ht := accepted h
      cases a : s.INITD with
      | false => exact .inl ⟨rfl, by rw [ht, if_pos a]⟩
      | true =>
        rw [if_neg (by simp [a])] at ht
        by_cases b : s.WV = 0xFFFF#16
        · exact .inr (.inr ⟨rfl, b, by rw [ht, if_neg (by simp [allLoaded, b])]⟩)
        · exact .inr (.inl ⟨rfl, b, by rw [ht, if_pos (by simp [allLoaded, b])]⟩)
    · refine .inr (.inr (.inr (.inr (.inl ⟨n, rfl, rfl, ?_⟩))))
      have ht := accepted h
      cases a : s.INITD with
      | false => exact .inl ⟨rfl, by rw [ht, if_pos a]⟩
      | true => exact .inr ⟨rfl, by rw [ht, if_neg (by simp [a])]⟩
    · exact .inr (.inr (.inr (.inr (.inr (.inl ⟨rfl, rfl, accepted h⟩)))))

/-- The idle core always completes the command it accepts. -/
theorem runCommand_completes {s : State} (hp : s.ph = .idle) (c : BitVec 8) (d : Word) :
    ∃ t, runCommand c d s = .next t := by
  unfold runCommand
  cases hd : decode (.cmd c d) with
  | error r => exact ⟨_, rfl⟩
  | ok i =>
    rcases decode_cmd_ok hd with ⟨rfl, rfl⟩ | ⟨rfl, rfl⟩ | ⟨n, rfl, rfl⟩ | ⟨rfl, rfl⟩ | ⟨n, rfl, rfl⟩ | ⟨rfl, rfl⟩ <;>
      exact ⟨_, accept_idle hp⟩

/-! ### Micro-operations of the busy core -/

/-- The state after the micro-operation a position names, phase by phase; of an idle core, the state itself. -/
def afterMicro (s : State) : State :=
  match s.ph with
  | .idle => s
  | .expand => afterXpnd s.t (writeW s.t (scheduleWord s.W s.t) s)
  | .loadv => moveTo .round 0#6 (writeV s.H s)
  | .round => afterRnd s.t (writeV (mix s.v (K s.t) (readW s.t s)) s)
  | .fold => moveTo .idle 0#6 (clearLoaded (writeH (feedForward s.H s.v) s))

/-- A micro-operation leaves these fields alone, whichever it is (R26). -/
theorem afterMicro_frame (s : State) :
    (afterMicro s).INITD = s.INITD ∧ (afterMicro s).EILL = s.EILL ∧ (afterMicro s).ENIN = s.ENIN ∧
      (afterMicro s).EINC = s.EINC ∧ (afterMicro s).events = s.events ∧ (afterMicro s).responses = s.responses ∧
      (afterMicro s).draws = s.draws := by
  unfold afterMicro afterXpnd afterRnd
  repeat' split
  all_goals simp

@[simp] theorem afterMicro_INITD (s : State) : (afterMicro s).INITD = s.INITD := (afterMicro_frame s).1
@[simp] theorem afterMicro_EILL (s : State) : (afterMicro s).EILL = s.EILL := (afterMicro_frame s).2.1
@[simp] theorem afterMicro_ENIN (s : State) : (afterMicro s).ENIN = s.ENIN := (afterMicro_frame s).2.2.1
@[simp] theorem afterMicro_EINC (s : State) : (afterMicro s).EINC = s.EINC := (afterMicro_frame s).2.2.2.1
@[simp] theorem afterMicro_events (s : State) : (afterMicro s).events = s.events := (afterMicro_frame s).2.2.2.2.1
@[simp] theorem afterMicro_responses (s : State) : (afterMicro s).responses = s.responses := (afterMicro_frame s).2.2.2.2.2.1
@[simp] theorem afterMicro_draws (s : State) : (afterMicro s).draws = s.draws := (afterMicro_frame s).2.2.2.2.2.2

/-- Where a micro-operation leaves the sequencer (R171). -/
theorem afterMicro_position {s : State} (hl : LegalPosition s) (hb : s.ph ≠ .idle) :
    nextPosition s.ph s.t = some ((afterMicro s).ph, (afterMicro s).t) := by
  obtain ⟨-, h2, h3, h4⟩ := hl
  cases hp : s.ph with
  | idle => exact absurd hp hb
  | expand =>
    have h16 : ¬s.t < 16#6 := by have := h4 hp; bv_omega
    rcases afterXpnd_cases s.t (writeW s.t (scheduleWord s.W s.t) s) with ⟨ht, h⟩ | ⟨ht, h⟩
    · have h63 : s.t ≠ 63#6 := by bv_omega
      simp [afterMicro, nextPosition, hp, h, h16, h63]
    · simp [afterMicro, nextPosition, hp, afterXpnd, ht]
  | loadv => simp [afterMicro, nextPosition, hp, h2 hp]
  | round =>
    rcases afterRnd_cases s.t (writeV (mix s.v (K s.t) (readW s.t s)) s) with ⟨ht, h⟩ | ⟨ht, h⟩
    · have h63 : s.t ≠ 63#6 := by bv_omega
      simp [afterMicro, nextPosition, hp, h, h63]
    · simp [afterMicro, nextPosition, hp, afterRnd, ht]
  | fold => simp [afterMicro, nextPosition, hp, h3 hp]

/-- A sequencer turn leaves the position alone. -/
theorem legalPosition_takeTurn {s : State} : LegalPosition (takeTurn s) ↔ LegalPosition s := by
  simp [LegalPosition]

/-- At a legal position of a busy core the step, unless it is a `Reset`, completes with the micro-operation's state. -/
theorem step_busy {s : State} (hl : LegalPosition s) (hb : s.ph ≠ .idle) (hr : ∀ es, s.events ≠ .reset :: es) :
    step s = .next (afterMicro (takeTurn s)) := by
  have run : ∀ i, decode (.seq (seqWord s)) = .ok i → step s = exec i (takeTurn s) := by
    intro i hi
    unfold step advance
    split
    next es he => exact absurd he (hr es)
    next => rw [hi]
  rw [decode_seqWord] at run
  obtain ⟨-, h2, h3, h4⟩ := hl
  cases hp : s.ph with
  | idle => exact absurd hp hb
  | expand =>
    simp only [hp, if_pos (h4 hp)] at run
    rw [run _ rfl]
    simp [exec, execXpnd, if_pos (h4 hp), atPosition_here, afterMicro, hp]
  | loadv =>
    simp only [hp, if_pos (h2 hp)] at run
    rw [run _ rfl]
    simp [exec, execLoadv, atPosition_here, afterMicro, hp, h2 hp]
  | round =>
    simp only [hp] at run
    rw [run _ rfl]
    simp [exec, execRnd, atPosition_here, afterMicro, hp]
  | fold =>
    simp only [hp, if_pos (h3 hp)] at run
    rw [run _ rfl]
    simp [exec, execFold, atPosition_here, afterMicro, hp, h3 hp]

/-! ### The step -/

/-- A `Reset` happens in every state. -/
theorem step_reset {s : State} {es : List Event} (he : s.events = .reset :: es) :
    step s = .next (resetCore { s with events := es }) := by
  unfold step advance
  rw [he]

/-- The idle core at its own position runs the command at the head of the schedule. -/
theorem step_command {s : State} {c : BitVec 8} {d : Word} {es : List Event} (hp : s.ph = .idle) (ht : s.t = 0#6)
    (he : s.events = .cmd c d :: es) : step s = runCommand c d { s with events := es } := by
  simp [step, advance, he, decode_seqWord, hp, ht, idleStep]

/-- Everything a completed step can be: a `Reset`; a micro-operation of the busy core at a legal position; a command run by
the idle core; or an idle step without a command. -/
theorem step_next_cases {s t : State} (h : step s = .next t) :
    (∃ es, s.events = .reset :: es ∧ t = resetCore { s with events := es }) ∨
    ((∀ es, s.events ≠ .reset :: es) ∧ s.ph ≠ .idle ∧ LegalPosition s ∧ t = afterMicro (takeTurn s)) ∨
    (s.ph = .idle ∧ s.t = 0#6 ∧ ∃ c d es, s.events = .cmd c d :: es ∧ runCommand c d { s with events := es } = .next t) ∨
    (s.ph = .idle ∧ s.t = 0#6 ∧ (s.events = [] ∨ ∃ es, s.events = .seqStep :: es) ∧ t = takeTurn s) := by
  by_cases hr : ∃ es, s.events = .reset :: es
  · obtain ⟨es, he⟩ := hr
    rw [step_reset he] at h
    exact .inl ⟨es, he, by cases h; rfl⟩
  have hr' : ∀ es, s.events ≠ .reset :: es := fun es he => hr ⟨es, he⟩
  have illegal : decode (.seq (seqWord s)) ≠ .error .unreachablePosition := by
    intro hd
    unfold step advance at h
    split at h
    next es he => exact hr' es he
    next => rw [hd] at h; cases h
  rw [decode_seqWord] at illegal
  have hl : LegalPosition s := by
    refine ⟨fun hp => ?_, fun hp => ?_, fun hp => ?_, fun hp => ?_⟩ <;> by_contra hc <;> simp [hp, hc] at illegal
  by_cases hb : s.ph = .idle
  · refine .inr (.inr ?_)
    have ht := hl.1 hb
    cases he : s.events with
    | nil =>
      refine .inr ⟨hb, ht, .inl rfl, ?_⟩
      simp [step, advance, he, decode_seqWord, hb, ht, idleStep] at h
      exact h.symm
    | cons e es =>
      cases e with
      | reset => exact absurd he (hr' es)
      | cmd c d =>
        rw [step_command hb ht he] at h
        exact .inl ⟨hb, ht, c, d, es, rfl, h⟩
      | seqStep =>
        refine .inr ⟨hb, ht, .inr ⟨es, rfl⟩, ?_⟩
        simp [step, advance, he, decode_seqWord, hb, ht, idleStep] at h
        exact h.symm
  · rw [step_busy hl hb hr'] at h
    exact .inr (.inl ⟨hr', hb, hl, by cases h; rfl⟩)

end Sys2Proof.Machine
end

