-- ==== Sys2Proof/Tests/Slice0.lean ====
section
/-! SUPPORT. Small tests, every expected value from spec/; and for each obligation with hypotheses a state and operands that
meet them. -/

namespace Sys2Proof.Tests

open Sys2Proof Sys2Proof.Machine

/-! ### Small states -/

/-- The block of "abc" (`42_schedule_expander.md` R122, worked example). -/
def abcBlock : Vector Word 16 :=
  #v[0x61626380#32, 0#32, 0#32, 0#32, 0#32, 0#32, 0#32, 0#32, 0#32, 0#32, 0#32, 0#32, 0#32, 0#32, 0#32, 0x00000018#32]

/-- A core at a position, with zero data, nothing initialised and nothing loaded. -/
def bare (ph : Phase) (t : BitVec 6) (events : List Event) : State where
  H := Vector.replicate 8 0#32
  v := Vector.replicate 8 0#32
  W := Vector.replicate 64 0#32
  ph := ph
  t := t
  INITD := false
  WV := 0#16
  EILL := false
  ENIN := false
  EINC := false
  events := events
  responses := []
  draws := 0

/-- A core at a position in the block of "abc": initialised, its block words loaded. -/
def loaded (ph : Phase) (t : BitVec 6) (events : List Event) : State :=
  { bare ph t events with H := IVROM, W := abcBlock ++ Vector.replicate 48 0#32, INITD := true, WV := 0xFFFF#16 }

/-- The state a step leaves, if it leaves one. -/
def left (o : Host.Outcome State Fault Refusal) : Option State :=
  match o with
  | .next s => some s
  | .fault _ => none
  | .refused _ => none

/-! ### Well-formedness (`30_encoding.md` R77, R78: the index of `XPND` is 16 to 63) -/

theorem test_wellformed_refuses_low_index : (Instr.xpnd 15#6).wellFormed = false := by decide

theorem test_wellformed_takes_index_ends :
    (Instr.xpnd 16#6).wellFormed = true ∧ (Instr.xpnd 63#6).wellFormed = true := by decide

/-! ### Decoding: words written out bit by bit from R74 and R77 -/

theorem test_decode_commands :
    decode (.cmd 0b00000000#8 0#32) = .ok .nop ∧ decode (.cmd 0b00010000#8 0#32) = .ok .init ∧
      decode (.cmd 0b00101111#8 0x00000018#32) = .ok (.ldw 15#4 0x00000018#32) ∧
      decode (.cmd 0b00100001#8 0x00000018#32) = .ok (.ldw 1#4 0x00000018#32) ∧
      decode (.cmd 0b00110000#8 0#32) = .ok .start ∧ decode (.cmd 0b01000111#8 0#32) = .ok (.rdh 7#3) ∧
      decode (.cmd 0b01000100#8 0#32) = .ok (.rdh 4#3) ∧ decode (.cmd 0b01010000#8 0#32) = .ok .rds := by decide

theorem test_decode_positions :
    decode (.seq 0b001010001#9) = .ok (.xpnd 17#6) ∧ decode (.seq 0b001111111#9) = .ok (.xpnd 63#6) ∧
      decode (.seq 0b010000000#9) = .ok .loadv ∧ decode (.seq 0b011000001#9) = .ok (.rnd 1#6) ∧
      decode (.seq 0b011100000#9) = .ok (.rnd 32#6) ∧ decode (.seq 0b100000000#9) = .ok .fold := by decide

theorem test_decode_rejects :
    decode (.cmd 0x48#8 0#32) = .error .illegalCommand ∧ decode (.cmd 0x60#8 0#32) = .error .illegalCommand ∧
      decode (.seq 0b000000000#9) = .error .sequencerIdle ∧ decode (.seq 0b001001111#9) = .error .unreachablePosition ∧
      decode (.seq 0b010000001#9) = .error .unreachablePosition := by decide

/-- The rows of spec/opcode_table.json; the word `0x040` of the `XPND` row has the index 0 that R78 leaves out. -/
theorem test_table_words :
    decodeTableWord 8 0x2F = some (.ldw 15#4 0#32) ∧ decodeTableWord 16 0x0D1 = some (.rnd 17#6) ∧
      decodeTableWord 16 0x050 = some (.xpnd 16#6) ∧ decodeTableWord 16 0x040 = none := by decide

/-! ### One step of each instruction -/

/-- R151: `NOP` in an idle core answers `(OK, 0)` and leaves everything, the data word ignored. -/
theorem test_nop : left (step (bare .idle 0#6 [.cmd 0x00#8 0xdeadbeef#32])) =
    some { bare .idle 0#6 [] with responses := [⟨.ok, 0#32⟩] } := by decide

/-- R152: `INIT` gives the eight words of R111 and `STATUS = 0x00000001`. -/
theorem test_init : (left (step (bare .idle 0#6 [.cmd 0x10#8 0#32]))).map (fun s => (s.H[0], s.H[4], s.H[7], status s)) =
    some (0x6a09e667#32, 0x510e527f#32, 0x5be0cd19#32, 0x00000001#32) := by decide

/-- R153: `LDW 15, 0x00000018` gives `W[15] = 0x00000018`, `STATUS = 0x80000000`. -/
theorem test_ldw : (left (step (bare .idle 0#6 [.cmd 0x2F#8 0x00000018#32]))).map (fun s => (s.W[15], s.W[14], status s)) =
    some (0x00000018#32, 0#32, 0x80000000#32) := by decide

/-- R154: `START` on a loaded block enters at `(EXPAND, 16)` and answers at once. -/
theorem test_start : (left (step (loaded .idle 0#6 [.cmd 0x30#8 0#32]))).map (fun s => (s.ph, s.t, s.responses)) =
    some (.expand, 16#6, [⟨.ok, 0#32⟩]) := by decide

/-- R154, R156, R205: `START` with nothing initialised or loaded reports `E_NOT_INIT` only; `STATUS` becomes `0x00000004`. -/
theorem test_start_refused : (left (step (bare .idle 0#6 [.cmd 0x30#8 0#32]))).map (fun s => (s.ph, s.responses, status s)) =
    some (.idle, [⟨.err .notInit, 0#32⟩], 0x00000004#32) := by decide

/-- R111: after `INIT`, `RDH 4` returns `0x510e527f`. -/
theorem test_rdh : (left (step (loaded .idle 0#6 [.cmd 0x44#8 0#32]))).map State.responses =
    some [⟨.ok, 0x510e527f#32⟩] := by decide

/-- R155: `RDH` before `INIT` gives no data. -/
theorem test_rdh_refused : (left (step (bare .idle 0#6 [.cmd 0x40#8 0#32]))).map (fun s => (s.responses, s.ENIN)) =
    some ([⟨.err .notInit, 0#32⟩], true) := by decide

/-- R156: after `INIT` and sixteen `LDW`, `RDS` returns `0xFFFF0001`. -/
theorem test_rds : (left (step (loaded .idle 0#6 [.cmd 0x50#8 0#32]))).map State.responses =
    some [⟨.ok, 0xFFFF0001#32⟩] := by decide

/-- R157: the word `0x48` is refused with `E_ILLEGAL`; with `INITD` set and nothing loaded `STATUS` becomes `0x00000003`. -/
theorem test_illegal : (left (step { bare .idle 0#6 [.cmd 0x48#8 0#32] with INITD := true })).map
    (fun s => (s.responses, status s)) = some ([⟨.err .illegal, 0#32⟩], 0x00000003#32) := by decide

/-- R122: in the block of "abc", `XPND 17` computes `0x000f0000`. -/
theorem test_xpnd : (left (step (loaded .expand 17#6 []))).map (fun s => (s.W[17], s.ph, s.t)) =
    some (0x000f0000#32, .expand, 18#6) := by decide

/-- R122: after `XPND 63` the position is `(LOADV, 0)`. -/
theorem test_xpnd_last : (left (step (loaded .expand 63#6 []))).map (fun s => (s.ph, s.t)) = some (.loadv, 0#6) := by decide

/-- R130: in the first block, `a = 0x6a09e667` and `h = 0x5be0cd19` after `LOADV`. -/
theorem test_loadv : (left (step (loaded .loadv 0#6 []))).map (fun s => (s.v[0], s.v[7], s.ph, s.t)) =
    some (0x6a09e667#32, 0x5be0cd19#32, .round, 0#6) := by decide

/-- R132: the first round of the block of "abc". -/
theorem test_rnd : (left (step { loaded .round 0#6 [] with v := IVROM })).map (fun s => (s.v, s.ph, s.t)) =
    some (#v[0x5d6aebcd#32, 0x6a09e667#32, 0xbb67ae85#32, 0x3c6ef372#32, 0xfa2a4622#32, 0x510e527f#32, 0x9b05688c#32,
      0x1f83d9ab#32], .round, 1#6) := by decide

/-- R132: after `RND 63` the position is `(FOLD, 0)`. -/
theorem test_rnd_last : (left (step (loaded .round 63#6 []))).map (fun s => (s.ph, s.t)) = some (.fold, 0#6) := by decide

/-- R134: the feed-forward of the block of "abc". -/
theorem test_fold : (left (step { loaded .fold 0#6 [] with
      v := #v[0x506e3058#32, 0xd39a2165#32, 0x04d24d6c#32, 0xb85e2ce9#32, 0x5ef50f24#32, 0xfb121210#32, 0x948d25b6#32,
        0x961f4894#32] })).map (fun s => (s.H, s.WV, s.ph)) =
    some (#v[0xba7816bf#32, 0x8f01cfea#32, 0x414140de#32, 0x5dae2223#32, 0xb00361a3#32, 0x96177a9c#32, 0xb410ff61#32,
      0xf20015ad#32], 0#16, .idle) := by decide

/-- R150: a command offered to a busy core is held, and the sequencer steps. -/
theorem test_held : (left (step (loaded .loadv 0#6 [.cmd 0x50#8 0#32]))).map (fun s => (s.ph, s.events, s.responses)) =
    some (.round, [.cmd 0x50#8 0#32], []) := by decide

/-- R230: `Reset` in the middle of a block. -/
theorem test_reset : (left (step { loaded .round 5#6 [.reset] with EILL := true })).map
    (fun s => (s.ph, s.t, status s)) = some (.idle, 0#6, 0#32) := by decide

/-- R78: a core at a position without a meaning does not step. -/
theorem test_unreachable : left (step (loaded .expand 15#6 [])) = none := by decide

/-- The placing of a word from the opcode table runs that instruction as the first one after reset. -/
theorem test_placed_word :
    (left (step (State.reset.withFetchWord 8 0x30))).map State.responses = some [⟨.err .notInit, 0#32⟩] ∧
      (left (step (State.reset.withFetchWord 16 0x0FF))).map (fun s => (s.ph, s.t)) = some (.fold, 0#6) := by decide

/-! ### Witnesses: the hypotheses of each obligation, met together -/

theorem witness_DecodeEncodeAgree : (Instr.xpnd 16#6).wellFormed = true ∧ (Instr.rnd 63#6).wellFormed = true := by decide

theorem witness_EncodeDecodeAgree :
    decode (.cmd 0x2F#8 7#32) = .ok (.ldw 15#4 7#32) ∧ decode (.seq 0b001010000#9) = .ok (.xpnd 16#6) := by decide

theorem witness_CommandMap : ∀ c ∈ [0x01#8, 0x1F#8, 0x31#8, 0x48#8, 0x4F#8, 0x51#8, 0x60#8, 0xFF#8],
    c ≠ 0x00#8 ∧ c ≠ 0x10#8 ∧ c.extractLsb' 4 4 ≠ 0x2#4 ∧ c ≠ 0x30#8 ∧
      ¬(c.extractLsb' 4 4 = 0x4#4 ∧ c.getLsbD 3 = false) ∧ c ≠ 0x50#8 := by decide

theorem witness_IllegalWordsRefused : ∀ c ∈ [0x01#8, 0x0F#8, 0x48#8, 0x60#8, 0xFF#8],
    let s := bare .idle 0#6 [.cmd c 9#32]
    s.ph = .idle ∧ s.t = 0#6 ∧ s.events = .cmd c 9#32 :: [] ∧ decode (.cmd c 9#32) = .error .illegalCommand := by decide

theorem witness_PositionMap : 16#6 ≤ 16#6 ∧ 16#6 ≤ 63#6 := by decide

theorem witness_UnreachablePositionsRefused :
    (∀ s ∈ [bare .expand 15#6 [], bare .idle 1#6 [.cmd 0x00#8 0#32], bare .loadv 63#6 [], bare .fold 1#6 [.seqStep]],
      decode (.seq (seqWord s)) = .error .unreachablePosition) ∧
    ∀ es, (bare .expand 15#6 []).events ≠ .reset :: es := ⟨by decide, fun _ h => nomatch h⟩

theorem witness_WdataReadByLdwOnly :
    let s := loaded .idle 0#6 [.cmd 0x47#8 1#32]
    s.ph = .idle ∧ (0x47#8).extractLsb' 4 4 ≠ 0x2#4 ∧ s.events = .cmd 0x47#8 1#32 :: [] ∧ (left (step s)).isSome = true ∧
      0x47#8 = 0x40#8 + (7#3).setWidth 8 ∧ (0x20#8 ≠ 0x50#8 ∧ ∀ i : BitVec 3, 0x20#8 ≠ 0x40#8 + i.setWidth 8) := by decide

/-- An idle core and a busy one, for `NOP`, `INIT`, `LDW` and `RDS`. -/
theorem witness_held_or_accepted : (bare .idle 0#6 []).ph = .idle ∧ (loaded .round 3#6 []).ph ≠ .idle := by decide

theorem witness_LdwStoresOneWord : 16#6 ≠ blockIndex 15#4 ∧ 0#6 ≠ blockIndex 15#4 ∧ (14 : Nat) ≠ (15#4).toNat := by decide

theorem witness_StartEntersTheSequencer :
    (let s := loaded .idle 0#6 []; s.ph = .idle ∧ s.INITD = true ∧ s.WV = 0xFFFF#16) ∧
    (let s := { loaded .idle 0#6 [] with INITD := false }; s.ph = .idle ∧ s.INITD = false) ∧
    (let s := { loaded .idle 0#6 [] with WV := 0x7FFF#16 }; s.ph = .idle ∧ s.INITD = true ∧ s.WV ≠ 0xFFFF#16) := by decide

theorem witness_RdhReadsOneWord :
    ((loaded .idle 0#6 []).ph = .idle ∧ (loaded .idle 0#6 []).INITD = true) ∧
      (bare .idle 0#6 []).ph = .idle ∧ (bare .idle 0#6 []).INITD = false := by decide

theorem witness_NotInitIsRefused :
    (Instr.start = .start ∨ ∃ n, Instr.start = .rdh n) ∧ (Instr.rdh 7#3 = .start ∨ ∃ n, Instr.rdh 7#3 = .rdh n) ∧
      (bare .idle 0#6 []).ph = .idle ∧ (bare .idle 0#6 []).INITD = false :=
  ⟨.inl rfl, .inr ⟨7#3, rfl⟩, by decide, by decide⟩

theorem witness_IncompleteIsRefused :
    (loaded .idle 0#6 []).ph = .idle ∧ (loaded .idle 0#6 []).INITD = true ∧
      (0xFFFE#16).getLsbD (0#4).toNat = false ∧ (0x7FFF#16).getLsbD (15#4).toNat = false ∧
      { loaded .idle 0#6 [] with WV := 0x7FFF#16 }.WV = 0x7FFF#16 := by decide

theorem witness_RefusalSetsOneFlag :
    ((left (step (bare .idle 0#6 [.cmd 0x60#8 0#32]))).map State.responses = some [⟨.err .illegal, 0#32⟩] ∧
      (left (step (bare .idle 0#6 [.cmd 0x30#8 0#32]))).map State.responses = some [⟨.err .notInit, 0#32⟩] ∧
      (left (step { loaded .idle 0#6 [.cmd 0x30#8 0#32] with WV := 0xFFFE#16 })).map State.responses =
        some [⟨.err .incomplete, 0#32⟩]) ∧
    (bare .round 9#6 [.reset]).events = .reset :: [] := by decide

/-- `CommandStepIsExecCmd`, `ResponseTable` and the first clause of `StepRunsDecodedInstruction`. -/
theorem witness_command_of_idle_core :
    let s := bare .idle 0#6 [.cmd 0x2F#8 5#32]
    s.ph = .idle ∧ s.t = 0#6 ∧ s.events = .cmd 0x2F#8 5#32 :: [] ∧ decode (.cmd 0x2F#8 5#32) = .ok (.ldw 15#4 5#32) ∧
      (left (step s)).isSome = true := by decide

/-- `CommandStepIsExecCmd` and `ResponseTable`: an idle core and a command word for each case of `exec_cmd`, with the answer the
case gives (R158). -/
theorem witness_each_case_of_exec_cmd :
    ∀ w ∈ [(loaded .idle 0#6 [.cmd 0x00#8 1#32], Resp.ok), (bare .idle 0#6 [.cmd 0x10#8 1#32], .ok),
        (bare .idle 0#6 [.cmd 0x20#8 1#32], .ok), (bare .idle 0#6 [.cmd 0x30#8 1#32], .err .notInit),
        ({ loaded .idle 0#6 [.cmd 0x30#8 1#32] with WV := 0xFFFE#16 }, .err .incomplete),
        (loaded .idle 0#6 [.cmd 0x30#8 1#32], .ok), (bare .idle 0#6 [.cmd 0x47#8 1#32], .err .notInit),
        (loaded .idle 0#6 [.cmd 0x47#8 1#32], .ok), (bare .idle 0#6 [.cmd 0x50#8 1#32], .ok),
        (loaded .idle 0#6 [.cmd 0x48#8 1#32], .err .illegal)],
      w.1.ph = .idle ∧ w.1.t = 0#6 ∧ w.1.events ≠ [] ∧
        ((left (step w.1)).map fun s => s.responses.map Response.resp) = some [w.2] := by decide

theorem witness_HeldCommandWaits :
    ∀ s ∈ [loaded .expand 16#6 [.cmd 0xFF#8 0#32], loaded .round 63#6 [.cmd 0x00#8 0#32], loaded .fold 0#6 [.cmd 0x30#8 0#32]],
      LegalPosition s ∧ s.ph ≠ .idle ∧ s.events ≠ [] := by decide

theorem witness_StepRunsDecodedInstruction :
    decode (.seq (seqWord (loaded .expand 16#6 [.seqStep]))) = .ok (.xpnd 16#6) ∧
      (∀ es, (loaded .expand 16#6 [.seqStep]).events ≠ .reset :: es) ∧
      (loaded .expand 16#6 [.seqStep]).events = .seqStep :: [] ∧
      ∀ es, (loaded .expand 16#6 [.cmd 0x00#8 0#32]).events ≠ .seqStep :: es :=
  ⟨by decide, (fun es => by simp [loaded, bare]), rfl, (fun es => by simp [loaded, bare])⟩

theorem witness_IdleSequencerDoesNothing :
    ((bare .idle 0#6 []).ph = .idle ∧ (bare .idle 0#6 []).t = 0#6 ∧ (bare .idle 0#6 []).events = []) ∧
      (bare .idle 0#6 [.seqStep]).events = .seqStep :: [] := by decide

/-- A completed step of each kind, for every statement about what a completed step leaves (`EveryStepIsOneEvent`,
`SequencerTransitions`, `ResetFromAnyState`, `InitdIsSetByInitOnly`, `BlockWordFlags`): `Reset`, command, micro-operation, idle. -/
theorem witness_completed_steps :
    ∀ s ∈ [loaded .round 5#6 [.reset], bare .idle 0#6 [.cmd 0x10#8 0#32], bare .idle 0#6 [.cmd 0x2F#8 1#32],
        loaded .idle 0#6 [.cmd 0x30#8 0#32], loaded .expand 63#6 [.seqStep], loaded .fold 0#6 [], bare .idle 0#6 []],
      (left (step s)).isSome = true := by decide

theorem witness_XpndComputesOneWord :
    ∀ t ∈ [16#6, 62#6, 63#6], 16#6 ≤ t ∧ (loaded .expand t []).ph = .expand ∧ (loaded .expand t []).t = t := by decide

theorem witness_LoadvCopiesH : (loaded .loadv 0#6 []).ph = .loadv ∧ (loaded .loadv 0#6 []).t = 0#6 := by decide

theorem witness_RndMixesTheWorkingWords :
    ∀ t ∈ [0#6, 62#6, 63#6], (loaded .round t []).ph = .round ∧ (loaded .round t []).t = t ∧
      (loaded .round t []).v = #v[0#32, 0#32, 0#32, 0#32, 0#32, 0#32, 0#32, 0#32] := by decide

theorem witness_FoldAddsBack : (loaded .fold 0#6 []).ph = .fold ∧ (loaded .fold 0#6 []).t = 0#6 := by decide

theorem witness_BlockTerminates :
    ∀ s ∈ [loaded .expand 16#6 [], loaded .expand 63#6 [], loaded .loadv 0#6 [], loaded .round 63#6 [], loaded .fold 0#6 []],
      LegalPosition s ∧ s.ph ≠ .idle ∧ s.events = [] := by decide

/-- R122: an all-zero block gives an all-zero schedule. -/
theorem witness_ExpandIsTheSchedule : IsSchedule (Vector.replicate 16 0#32) (Vector.replicate 64 0#32) := by decide

theorem witness_ExpansionRun :
    let s := loaded .expand 16#6 [.seqStep, .cmd 0x40#8 0#32]
    s.ph = .expand ∧ s.t = 16#6 ∧ Event.reset ∉ s.events := by decide

theorem witness_StartCompressesTheBlock :
    let s := loaded .idle 0#6 [.cmd 0x30#8 0#32, .seqStep, .cmd 0x40#8 0#32]
    s.ph = .idle ∧ s.t = 0#6 ∧ s.INITD = true ∧ s.WV = 0xFFFF#16 ∧
      s.events = .cmd 0x30#8 0#32 :: [.seqStep, .cmd 0x40#8 0#32] ∧ Event.reset ∉ [Event.seqStep, .cmd 0x40#8 0#32] := by decide

theorem witness_BlocksChainThroughH :
    let s := bare .idle 0#6 (issue .init ++ [abcBlock, abcBlock].flatMap hashblk)
    s.ph = .idle ∧ s.t = 0#6 ∧ s.events = issue .init ++ [abcBlock, abcBlock].flatMap hashblk ∧ s.events.length = 35 := by
  decide

theorem witness_DriverReadsTheHash :
    let s := bare .idle 0#6 ((driverEvents [0x61#8, 0x62#8, 0x63#8]).getD [])
    [0x61#8, 0x62#8, 0x63#8].length < 2 ^ 61 ∧ s.ph = .idle ∧ s.t = 0#6 ∧
      driverEvents [0x61#8, 0x62#8, 0x63#8] = some s.events := by
  decide

theorem witness_ResetFromAnyState :
    (loaded .expand 20#6 [.reset]).events = .reset :: [] ∧
      (bare .idle 0#6 [.reset]).events = (loaded .expand 20#6 [.reset]).events ∧
      (bare .idle 0#6 [.reset]).responses = (loaded .expand 20#6 [.reset]).responses ∧
      (bare .idle 0#6 [.reset]).draws = (loaded .expand 20#6 [.reset]).draws := by decide

theorem witness_HeldCommandSurvivesReset :
    let s := loaded .round 63#6 [.reset, .cmd 0x40#8 0#32]
    s.ph ≠ .idle ∧ s.events = .reset :: .cmd 0x40#8 0#32 :: [] := by decide

theorem witness_ErrorFlagsOnlyRecord :
    let s := loaded .idle 0#6 [.cmd 0x50#8 0#32]
    SameButErrors s { s with EILL := true, responses := [⟨.ok, 0#32⟩] } ∧ (left (step s)).isSome = true := by decide

/-- Completed steps in which `busy` rises, and falls by `FOLD` and by `Reset`. -/
theorem witness_BusyRisesAtStartFallsAtFold :
    ((loaded .idle 0#6 [.cmd 0x30#8 0#32]).ph = .idle ∧ (loaded .idle 0#6 [.cmd 0x30#8 0#32]).t = 0#6 ∧
      (loaded .idle 0#6 [.cmd 0x30#8 0#32]).INITD = true ∧ (loaded .idle 0#6 [.cmd 0x30#8 0#32]).WV = 0xFFFF#16 ∧
      (loaded .idle 0#6 [.cmd 0x30#8 0#32]).busy = false ∧
      (left (step (loaded .idle 0#6 [.cmd 0x30#8 0#32]))).map State.busy = some true) ∧
    ((loaded .fold 0#6 []).ph = .fold ∧ (loaded .fold 0#6 []).t = 0#6 ∧ (loaded .fold 0#6 []).busy = true ∧ (left (step (loaded .fold 0#6 []))).map State.busy = some false) ∧
    (loaded .round 1#6 [.reset]).events = .reset :: [] ∧ (loaded .round 1#6 [.reset]).busy = true ∧
      (left (step (loaded .round 1#6 [.reset]))).map State.busy = some false := by
  decide

theorem witness_ReadsHaveNoSideEffect :
    (((∃ n, Instr.rdh 7#3 = .rdh n) ∨ Instr.rdh 7#3 = .rds) ∧ (loaded .idle 0#6 []).ph = .idle ∧
      (loaded .idle 0#6 []).INITD = true) ∧
    (((∃ n, Instr.rds = .rdh n) ∨ Instr.rds = .rds) ∧ (bare .idle 0#6 []).ph = .idle) ∧
    (bare .idle 0#6 []).INITD = false ∧ Instr.rdh 7#3 ≠ .rds :=
  ⟨⟨.inl ⟨7#3, rfl⟩, by decide, by decide⟩, ⟨.inr rfl, by decide⟩, by decide, by decide⟩

/-- `WhoWritesWhat`: an `exec` of each family that completes. -/
theorem witness_WhoWritesWhat :
    (left (exec .init (bare .idle 0#6 []))).isSome = true ∧ (left (exec (.ldw 3#4 1#32) (bare .idle 0#6 []))).isSome = true ∧
      (left (exec (.xpnd 16#6) (loaded .expand 16#6 []))).isSome = true ∧
      (left (exec .fold (loaded .fold 0#6 []))).isSome = true := by decide

theorem witness_EveryStepKeepsTheInvariants :
    ∀ s ∈ [loaded .expand 63#6 [], loaded .round 63#6 [.reset], bare .idle 0#6 [.cmd 0x30#8 0#32]],
      Invariants s ∧ (left (step s)).isSome = true := by decide

/-- Two idle cores before `INIT` that differ in every `undef` word. -/
theorem witness_UndefIsNeverObserved_idle :
    Invariants (bare .idle 0#6 [.cmd 0x10#8 0#32]) ∧
      AgreeOnDefined (bare .idle 0#6 [.cmd 0x10#8 0#32])
        { bare .idle 0#6 [.cmd 0x10#8 0#32] with
          H := Vector.replicate 8 7#32, v := Vector.replicate 8 8#32, W := Vector.replicate 64 9#32, draws := 80 } ∧
      (left (step (bare .idle 0#6 [.cmd 0x10#8 0#32]))).isSome = true := by decide

/-- Two cores at the start of the expansion that differ in the working words and in `W[16..63]`. -/
theorem witness_UndefIsNeverObserved_expand :
    Invariants (loaded .expand 16#6 []) ∧
      AgreeOnDefined (loaded .expand 16#6 [])
        { loaded .expand 16#6 [] with v := Vector.replicate 8 8#32, W := abcBlock ++ Vector.replicate 48 9#32 } ∧
      (left (step (loaded .expand 16#6 []))).isSome = true := by decide

theorem witness_ControlIgnoresData :
    let s := bare .idle 0#6 [.cmd 0x2F#8 1#32]
    let s' := { s with H := Vector.replicate 8 7#32, events := [.cmd 0x2F#8 2#32], draws := 5 }
    SameControl s s' ∧ (left (step s)).isSome = true := by decide

theorem witness_LegalStepsAlwaysComplete :
    LegalPosition (loaded .expand 16#6 []) ∧ LegalPosition (bare .idle 0#6 [.cmd 0xFF#8 0#32]) ∧
      LegalPosition (bare .round 63#6 [.reset]) := by decide

theorem witness_SumsAreModulo : [1#32, 2#32, 3#32].Perm [3#32, 1#32, 2#32] := by decide

theorem witness_RotrBitByBit : (31 : Nat) < 32 ∧ 1 ≤ 1 ∧ (1 : Nat) ≤ 31 ∧ (31 : Nat) ≤ 31 := by decide

theorem witness_StatusLayout : (4 : Nat) ≤ 4 ∧ (4 : Nat) ≤ 15 ∧ (15 : Nat) ≤ 15 ∧ (15 : Nat) < 16 := by decide

theorem witness_SigmasBitByBit : (0 : Nat) < 32 ∧ (31 : Nat) < 32 := by decide

theorem witness_PaddingPostconditions : ([] : List Byte).length < 2 ^ 61 ∧ (List.replicate 55 0x61#8).length < 2 ^ 61 ∧
    (List.replicate 56 0x61#8).length < 2 ^ 61 := by decide

end Sys2Proof.Tests
end

/-! # The flags of `10_state.md` (R28 to R33): INITD, WV, the sticky error flags and STATUS -/

/-! ## Commands of the idle core, run forward -/

namespace Sys2Proof.Machine

/-- The command word of `LDW i` as the statements write it is the opcode before the index (R74). -/
theorem ldw_word (i : BitVec 4) : 0x20#8 + i.setWidth 8 = 0b0010#4 ++ i := by
  revert i
  decide

theorem decode_ldw (i : BitVec 4) (d : Word) : decode (.cmd (0x20#8 + i.setWidth 8) d) = .ok (.ldw i d) := by
  have zero : ∀ i : BitVec 4, decode (.cmd (0x20#8 + i.setWidth 8) 0#32) = .ok (.ldw i 0#32) := by decide
  rw [decode_cmd_data, zero]

theorem exec_nop_idle {s : State} (hp : s.ph = .idle) : exec .nop s = .next (respond .ok 0#32 s) :=
  accept_idle hp

theorem exec_rds_idle {s : State} (hp : s.ph = .idle) : exec .rds s = .next (respond .ok (status s) s) :=
  accept_idle hp

theorem exec_init_idle {s : State} (hp : s.ph = .idle) :
    exec .init s = .next (respond .ok 0#32 (setInitd (writeH (Vector.ofFn fun i => IV (BitVec.ofFin i)) s))) :=
  accept_idle hp

theorem exec_ldw_idle {s : State} (hp : s.ph = .idle) (i : BitVec 4) (x : Word) :
    exec (.ldw i x) s = .next (respond .ok 0#32 (setLoaded i (writeW (blockIndex i) x s))) :=
  accept_idle hp

theorem exec_start_notInit {s : State} (hp : s.ph = .idle) (hi : s.INITD = false) :
    exec .start s = .next (raise .notInit s) :=
  (accept_idle hp).trans (by rw [if_pos hi])

theorem exec_start_incomplete {s : State} (hp : s.ph = .idle) (hi : s.INITD = true) (hw : s.WV ≠ 0xFFFF#16) :
    exec .start s = .next (raise .incomplete s) :=
  (accept_idle hp).trans (by rw [if_neg (by simp [hi]), if_pos (by simp [allLoaded, hw])])

theorem exec_start_ok {s : State} (hp : s.ph = .idle) (hi : s.INITD = true) (hw : s.WV = 0xFFFF#16) :
    exec .start s = .next (respond .ok 0#32 (moveTo .expand 16#6 s)) :=
  (accept_idle hp).trans (by rw [if_neg (by simp [hi]), if_neg (by simp [allLoaded, hw])])

theorem exec_rdh_notInit {s : State} (hp : s.ph = .idle) (hi : s.INITD = false) (n : BitVec 3) :
    exec (.rdh n) s = .next (raise .notInit s) :=
  (accept_idle hp).trans (by rw [if_pos hi])

theorem exec_rdh_ok {s : State} (hp : s.ph = .idle) (hi : s.INITD = true) (n : BitVec 3) :
    exec (.rdh n) s = .next (respond .ok (readH n s) s) :=
  (accept_idle hp).trans (by rw [if_neg (by simp [hi])])

/-- A command word that decodes runs the instruction it decodes to. -/
theorem runCommand_ok {s : State} {c : BitVec 8} {d : Word} {i : Instr} (hd : decode (.cmd c d) = .ok i) :
    runCommand c d s = exec i s := by
  rw [runCommand, hd]

theorem runCommand_illegal {s : State} {c : BitVec 8} {d : Word} {r : Reject} (hd : decode (.cmd c d) = .error r) :
    runCommand c d s = .next (raise .illegal s) := by
  rw [runCommand, hd]

theorem sameButErrors_respond (r : Resp) (x : Word) (s : State) : SameButErrors s (respond r x s) :=
  ⟨rfl, rfl, rfl, rfl, rfl, rfl, rfl, rfl, rfl⟩

theorem sameButErrors_raise (c : Cause) (s : State) : SameButErrors s (raise c s) := by
  simp [SameButErrors]

/-- What a command accepted by the idle core can write beside the error flags and the answer: only `INIT`, `LDW` and an
error-free `START` write anything (R26). -/
theorem runCommand_writes {s t : State} {c : BitVec 8} {d : Word} (hp : s.ph = .idle) (h : runCommand c d s = .next t) :
    (c = 0x10#8 ∧ t = respond .ok 0#32 (setInitd (writeH (Vector.ofFn fun i => IV (BitVec.ofFin i)) s))) ∨
    (∃ n : BitVec 4, c = 0x20#8 + n.setWidth 8 ∧ t = respond .ok 0#32 (setLoaded n (writeW (blockIndex n) d s))) ∨
    (c = 0x30#8 ∧ t = respond .ok 0#32 (moveTo .expand 16#6 s)) ∨
    SameButErrors s t := by
  rcases runCommand_next_cases hp h with ⟨-, -, rfl⟩ | ⟨hc, -, ht⟩ | ⟨n, hc, -, ht⟩ |
    ⟨hc, -, ⟨-, rfl⟩ | ⟨-, -, rfl⟩ | ⟨-, -, ht⟩⟩ | ⟨n, -, -, ⟨-, rfl⟩ | ⟨-, rfl⟩⟩ | ⟨-, -, rfl⟩ | ⟨-, rfl⟩
  · exact .inr (.inr (.inr (sameButErrors_respond _ _ s)))
  · exact .inl ⟨hc, ht⟩
  · exact .inr (.inl ⟨n, hc.trans (ldw_word n).symm, ht⟩)
  · exact .inr (.inr (.inr (sameButErrors_raise _ s)))
  · exact .inr (.inr (.inr (sameButErrors_raise _ s)))
  · exact .inr (.inr (.inl ⟨hc, ht⟩))
  · exact .inr (.inr (.inr (sameButErrors_raise _ s)))
  · exact .inr (.inr (.inr (sameButErrors_respond _ _ s)))
  · exact .inr (.inr (.inr (sameButErrors_respond _ _ s)))
  · exact .inr (.inr (.inr (sameButErrors_raise _ s)))

end Sys2Proof.Machine

/-! ## Steps, with the event that is performed known -/

namespace Sys2Proof.Machine

/-- A completed step of an idle core with a command offered has run that command. -/
theorem runCommand_of_step {s t : State} {c : BitVec 8} {d : Word} {es : List Event} (hp : s.ph = .idle)
    (he : s.events = .cmd c d :: es) (h : step s = .next t) : runCommand c d { s with events := es } = .next t := by
  rcases step_next_cases h with ⟨_, hr, -⟩ | ⟨-, hb, -⟩ | ⟨-, ht, -⟩ | ⟨-, ht, -⟩
  · simp [he] at hr
  · exact absurd hp hb
  · exact (step_command hp ht he).symm.trans h
  · exact (step_command hp ht he).symm.trans h

/-- A completed step of a busy core that is no `Reset` is the micro-operation of its position. -/
theorem afterMicro_of_step {s t : State} (hb : s.ph ≠ .idle) (hr : ∀ es, s.events ≠ .reset :: es)
    (h : step s = .next t) : t = afterMicro (takeTurn s) := by
  rcases step_next_cases h with ⟨es, he, -⟩ | ⟨-, -, -, ht⟩ | ⟨hp, -⟩ | ⟨hp, -⟩
  · exact absurd he (hr es)
  · exact ht
  · exact absurd hp hb
  · exact absurd hp hb

/-- The idle core without a command lets the turn pass (R170). -/
theorem step_idle_turn {s : State} (hp : s.ph = .idle) (ht : s.t = 0#6)
    (he : s.events = [] ∨ ∃ es, s.events = .seqStep :: es) : step s = .next (takeTurn s) := by
  rcases he with he | ⟨es, he⟩ <;> simp [step, advance, he, decode_seqWord, hp, ht, idleStep]

/-- The feed-forward of `FOLD`, one word (R134). -/
theorem feedForward_getElem (H v : Vector Word 8) (i : Fin 8) : (feedForward H v)[i.val] = H[i.val] + v[i.val] := by
  simp [feedForward, add32]

/-- The micro-operation of the position `FOLD` (R134). -/
theorem afterMicro_fold {s : State} (hp : s.ph = .fold) :
    afterMicro s = moveTo .idle 0#6 (clearLoaded (writeH (feedForward s.H s.v) s)) := by
  simp [afterMicro, hp]

theorem afterXpnd_WV (n : BitVec 6) (s : State) : (afterXpnd n s).WV = s.WV := by
  unfold afterXpnd
  split <;> rfl

theorem afterRnd_WV (n : BitVec 6) (s : State) : (afterRnd n s).WV = s.WV := by
  unfold afterRnd
  split <;> rfl

/-- No micro-operation but `FOLD` writes `WV` (R31). -/
theorem afterMicro_WV {s : State} (hp : s.ph ≠ .fold) : (afterMicro s).WV = s.WV := by
  unfold afterMicro
  split
  next => rfl
  next => exact afterXpnd_WV _ _
  next => rfl
  next => exact afterRnd_WV _ _
  next h => exact absurd h hp

end Sys2Proof.Machine

/-! ## STATUS (R33) -/

namespace Sys2Proof.Machine

/-- Every bit of `STATUS`: the four flags, twelve zeros, and `WV` above them (R33). -/
theorem status_getLsbD (s : State) (k : Nat) : (status s).getLsbD k =
    if k = 0 then s.INITD else if k = 1 then s.EILL else if k = 2 then s.ENIN else if k = 3 then s.EINC
    else if k < 16 then false else s.WV.getLsbD (k - 16) := by
  unfold status
  simp only [BitVec.getLsbD_append, BitVec.getLsbD_ofBool, BitVec.getLsbD_zero]
  rcases k with _ | _ | _ | _ | k
  · simp
  · simp
  · simp
  · simp
  · by_cases h : k < 12
    · simp [h]
    · simp [h]; omega

theorem status_getLsbD_zero (s : State) : (status s).getLsbD 0 = s.INITD := status_getLsbD s 0

theorem status_getLsbD_WV (s : State) (i : Nat) : (status s).getLsbD (16 + i) = s.WV.getLsbD i := by
  rw [status_getLsbD, if_neg (by omega), if_neg (by omega), if_neg (by omega), if_neg (by omega), if_neg (by omega),
    Nat.add_sub_cancel_left]

/-- Settles O41: every bit of `STATUS` is the flag R33 puts there. -/
theorem statusLayout : Obligations.StatusLayout := by
  intro s
  refine ⟨status_getLsbD s 0, status_getLsbD s 1, status_getLsbD s 2, status_getLsbD s 3, fun k h4 h15 => ?_,
    fun i _ => status_getLsbD_WV s i, by decide⟩
  rw [status_getLsbD, if_neg (by omega), if_neg (by omega), if_neg (by omega), if_neg (by omega), if_pos (by omega)]

end Sys2Proof.Machine

/-! ## INITD (R29) -/

namespace Sys2Proof.Machine

/-- A command that changes `INITD` is `INIT`, which sets it. -/
theorem runCommand_INITD_changed {s t : State} {c : BitVec 8} {d : Word} (hp : s.ph = .idle)
    (h : runCommand c d s = .next t) (hne : t.INITD ≠ s.INITD) : c = 0x10#8 ∧ t.INITD = true := by
  rcases runCommand_writes hp h with ⟨hc, rfl⟩ | ⟨n, -, rfl⟩ | ⟨-, rfl⟩ | hs
  · exact ⟨hc, rfl⟩
  · exact absurd rfl hne
  · exact absurd rfl hne
  · obtain ⟨-, -, -, -, -, hi, -⟩ := hs
    exact absurd hi.symm hne

/-- A step other than `Reset` that changes `INITD` is an accepted `INIT`, which sets it. -/
theorem step_INITD_changed {s t : State} (h : step s = .next t) (hr : ∀ es, s.events ≠ .reset :: es)
    (hne : t.INITD ≠ s.INITD) : t.INITD = true ∧ s.ph = .idle ∧ ∃ d es, s.events = .cmd 0x10#8 d :: es := by
  rcases step_next_cases h with ⟨es, he, -⟩ | ⟨-, -, -, rfl⟩ | ⟨hp, -, c, d, es, he, hc⟩ | ⟨-, -, -, rfl⟩
  · exact absurd he (hr es)
  · exact absurd (by simp) hne
  · obtain ⟨rfl, ht⟩ := runCommand_INITD_changed (s := { s with events := es }) hp hc hne
    exact ⟨ht, hp, d, es, he⟩
  · exact absurd (by simp) hne

/-- Settles O38: `INIT` and `Reset` are the only events that write `INITD`. -/
theorem initdIsSetByInitOnly : Obligations.InitdIsSetByInitOnly := by
  refine ⟨fun s n hp hi => ⟨exec_start_notInit hp hi, exec_rdh_notInit hp hi n⟩, status_getLsbD_zero,
    fun s hp => ⟨_, exec_init_idle hp, rfl⟩, fun s t h => ⟨fun es he => ?_, step_INITD_changed h⟩, rfl⟩
  rw [step_reset he] at h
  cases h
  rfl

end Sys2Proof.Machine

/-! ## WV (R30, R31) -/

namespace Sys2Proof.Machine

/-- A command that changes `WV` is an `LDW`. -/
theorem runCommand_WV_changed {s t : State} {c : BitVec 8} {d : Word} (hp : s.ph = .idle)
    (h : runCommand c d s = .next t) (hne : t.WV ≠ s.WV) : ∃ i : BitVec 4, c = 0x20#8 + i.setWidth 8 := by
  rcases runCommand_writes hp h with ⟨-, rfl⟩ | ⟨n, hc, -⟩ | ⟨-, rfl⟩ | hs
  · exact absurd rfl hne
  · exact ⟨n, hc⟩
  · exact absurd rfl hne
  · obtain ⟨-, -, -, -, -, -, hw, -⟩ := hs
    exact absurd hw.symm hne

/-- A step other than `Reset` that changes `WV` is a `FOLD` or an accepted `LDW`. -/
theorem step_WV_changed {s t : State} (h : step s = .next t) (hr : ∀ es, s.events ≠ .reset :: es)
    (hne : t.WV ≠ s.WV) : s.ph = .fold ∨ (s.ph = .idle ∧ ∃ (i : BitVec 4) (d : Word) (es : List Event),
      s.events = .cmd (0x20#8 + i.setWidth 8) d :: es) := by
  rcases step_next_cases h with ⟨es, he, -⟩ | ⟨-, -, -, rfl⟩ | ⟨hp, -, c, d, es, he, hc⟩ | ⟨-, -, -, rfl⟩
  · exact absurd he (hr es)
  · refine .inl (by_contra fun hf => hne ?_)
    rw [afterMicro_WV (by simpa using hf), takeTurn_WV]
  · obtain ⟨i, rfl⟩ := runCommand_WV_changed (s := { s with events := es }) hp hc hne
    exact .inr ⟨hp, i, d, es, he⟩
  · exact absurd (by simp) hne

/-- The bits of `WV` after `LDW i` (R30). -/
theorem setLoaded_WV_getLsbD (i : BitVec 4) (s : State) (k : Nat) :
    (setLoaded i s).WV.getLsbD k = (s.WV.getLsbD k || decide (k = i.toNat)) := by
  have : i.toNat < 16 := i.isLt
  simp [BitVec.getLsbD_twoPow, this, eq_comm]

/-- An accepted `LDW i` sets `WV[i]` and no other bit. -/
theorem step_ldw_WV {s t : State} {i : BitVec 4} {d : Word} {es : List Event} (h : step s = .next t)
    (hp : s.ph = .idle) (he : s.events = .cmd (0x20#8 + i.setWidth 8) d :: es) (k : Nat) :
    t.WV.getLsbD k = (s.WV.getLsbD k || decide (k = i.toNat)) := by
  have hc := runCommand_of_step hp he h
  rw [runCommand_ok (decode_ldw i d), exec_ldw_idle (s := { s with events := es }) hp] at hc
  cases hc
  exact setLoaded_WV_getLsbD i s k

/-- The step from `FOLD` adds `v` into `H`, clears `WV` and leaves the core idle, all at once (R31, R134). -/
theorem step_fold {s t : State} (h : step s = .next t) (hr : ∀ es, s.events ≠ .reset :: es) (hp : s.ph = .fold) :
    (∀ i : Fin 8, t.H[i] = s.H[i] + s.v[i]) ∧ t.WV = 0#16 ∧ t.ph = .idle := by
  have ht := afterMicro_of_step (by simp [hp]) hr h
  rw [afterMicro_fold (by simp [hp])] at ht
  subst ht
  exact ⟨fun i => by simp [feedForward_getElem], rfl, rfl⟩

/-- Settles O39: `LDW`, `FOLD` and `Reset` are the only events that write `WV`, each as R30 and R31 say. -/
theorem blockWordFlags : Obligations.BlockWordFlags := by
  refine ⟨rfl, fun s i => ⟨status_getLsbD_WV s i.toNat, fun hp hi hb => exec_start_incomplete hp hi ?_⟩,
    fun s t h => ⟨fun es he => ?_, fun hr => ⟨step_fold h hr, fun hp i d es he => step_ldw_WV h hp he,
      step_WV_changed h hr⟩⟩⟩
  · intro hw
    have all_set : ∀ i : BitVec 4, (0xFFFF#16).getLsbD i.toNat = true := by decide
    rw [hw, all_set] at hb
    cases hb
  · rw [step_reset he] at h
    cases h
    rfl

end Sys2Proof.Machine

/-! ## The sticky error flags (R32): set by their cause, and cleared by Reset alone -/

namespace Sys2Proof.Machine

/-- The sticky flag of a cause, the one `setError` sets. -/
def errorFlag (e : Cause) (s : State) : Bool :=
  match e with
  | .illegal => s.EILL
  | .notInit => s.ENIN
  | .incomplete => s.EINC

/-- Taking an exception sets the flag of its cause and leaves the other two. -/
theorem errorFlag_raise (e c : Cause) (s : State) :
    errorFlag e (raise c s) = (errorFlag e s || decide (Resp.err c = .err e)) := by
  cases e <;> simp [errorFlag]

/-- The flag of a cause depends on the three sticky flags alone. -/
theorem errorFlag_congr {s t : State} (h : SameErrors s t) (e : Cause) : errorFlag e t = errorFlag e s := by
  obtain ⟨hill, hnin, hinc⟩ := h
  cases e
  · exact hill
  · exact hnin
  · exact hinc

/-- The step answers one command with the code `r`, and sets the flag `r` names if it refuses. -/
def AnswersAndRecords (s t : State) : Prop :=
  ∃ r x, t.responses = ⟨r, x⟩ :: s.responses ∧ ∀ e, errorFlag e t = (errorFlag e s || decide (r = .err e))

theorem answersAndRecords_raise (c : Cause) (s : State) : AnswersAndRecords s (raise c s) :=
  ⟨.err c, 0#32, raise_responses c s, fun e => errorFlag_raise e c s⟩

theorem answersAndRecords_respond_ok {s u : State} (hu : SameErrors s u) (hr : u.responses = s.responses) (x : Word) :
    AnswersAndRecords s (respond .ok x u) :=
  ⟨.ok, x, by rw [respond_responses, hr], fun e => by simpa using errorFlag_congr (t := respond .ok x u) hu e⟩

/-- Every command of the idle core is answered, and its answer says which flag it sets. -/
theorem runCommand_answersAndRecords {s t : State} {c : BitVec 8} {d : Word} (hp : s.ph = .idle)
    (h : runCommand c d s = .next t) : AnswersAndRecords s t := by
  have silent : SameErrors s s := ⟨rfl, rfl, rfl⟩
  rcases runCommand_next_cases hp h with ⟨-, -, rfl⟩ | ⟨-, -, rfl⟩ | ⟨n, -, -, rfl⟩ |
    ⟨-, -, ⟨-, rfl⟩ | ⟨-, -, rfl⟩ | ⟨-, -, rfl⟩⟩ | ⟨n, -, -, ⟨-, rfl⟩ | ⟨-, rfl⟩⟩ | ⟨-, -, rfl⟩ | ⟨-, rfl⟩
  · exact answersAndRecords_respond_ok silent rfl _
  · exact answersAndRecords_respond_ok ⟨rfl, rfl, rfl⟩ rfl _
  · exact answersAndRecords_respond_ok ⟨rfl, rfl, rfl⟩ rfl _
  · exact answersAndRecords_raise _ s
  · exact answersAndRecords_raise _ s
  · exact answersAndRecords_respond_ok ⟨rfl, rfl, rfl⟩ rfl _
  · exact answersAndRecords_raise _ s
  · exact answersAndRecords_respond_ok silent rfl _
  · exact answersAndRecords_respond_ok silent rfl _
  · exact answersAndRecords_raise _ s

/-- A step that is no `Reset` answers a command and records its refusal, or answers nothing and leaves the flags. -/
theorem step_answersAndRecords {s t : State} (h : step s = .next t) (hr : ∀ es, s.events ≠ .reset :: es) :
    (t.responses = s.responses ∧ ∀ e, errorFlag e t = errorFlag e s) ∨ AnswersAndRecords s t := by
  rcases step_next_cases h with ⟨es, he, -⟩ | ⟨-, -, -, rfl⟩ | ⟨hp, -, c, d, es, -, hc⟩ | ⟨-, -, -, rfl⟩
  · exact absurd he (hr es)
  · exact .inl ⟨by simp, errorFlag_congr ⟨by simp, by simp, by simp⟩⟩
  · exact .inr (runCommand_answersAndRecords (s := { s with events := es }) hp hc)
  · exact .inl ⟨by simp, errorFlag_congr ⟨by simp, by simp, by simp⟩⟩

/-- A `Reset` answers nothing, so a step that gives an answer is none. -/
theorem not_reset_of_answer {s t : State} {r : Response} (h : step s = .next t)
    (ht : t.responses = r :: s.responses) (es : List Event) : s.events ≠ .reset :: es := by
  intro he
  rw [step_reset he] at h
  cases h
  exact List.cons_ne_self _ _ ht.symm

/-- A refused command sets the flag of its cause. -/
theorem errorFlag_of_refused {s t : State} {e : Cause} {x : Word} (h : step s = .next t)
    (ht : t.responses = ⟨.err e, x⟩ :: s.responses) : errorFlag e t = true := by
  rcases step_answersAndRecords h (not_reset_of_answer h ht) with ⟨hs, -⟩ | ⟨r, y, hs, hf⟩
  · exact absurd (ht.symm.trans hs) (List.cons_ne_self _ _)
  · obtain ⟨⟨rfl, -⟩, -⟩ : (r = .err e ∧ y = x) ∧ s.responses = s.responses := by simpa using hs.symm.trans ht
    simp [hf]

/-- No step but `Reset` clears a flag. -/
theorem errorFlag_kept {s t : State} (h : step s = .next t) (hr : ∀ es, s.events ≠ .reset :: es) {e : Cause}
    (hf : errorFlag e s = true) : errorFlag e t = true := by
  rcases step_answersAndRecords h hr with ⟨-, hk⟩ | ⟨r, x, -, hk⟩
  · rw [hk, hf]
  · rw [hk, hf, Bool.true_or]

end Sys2Proof.Machine

/-! ## The sticky error flags (R32): no step depends on them -/

namespace Sys2Proof.Machine

/-- The state `s` with the error flags and the answers of `r`. -/
def withRecord (r s : State) : State :=
  { s with EILL := r.EILL, ENIN := r.ENIN, EINC := r.EINC, responses := r.responses }

theorem sameButErrors_withRecord (r s : State) : SameButErrors s (withRecord r s) :=
  ⟨rfl, rfl, rfl, rfl, rfl, rfl, rfl, rfl, rfl⟩

/-- Two states that agree but for errors and answers differ by a `withRecord`. -/
theorem exists_eq_withRecord {s s' : State} (h : SameButErrors s s') : ∃ r, s' = withRecord r s := by
  obtain ⟨hH, hv, hW, hph, ht, hi, hw, he, hd⟩ := h
  exact ⟨s', by simp [withRecord, hH, hv, hW, hph, ht, hi, hw, he, hd]⟩

theorem takeTurn_withRecord (r s : State) : takeTurn (withRecord r s) = withRecord r (takeTurn s) := by
  unfold takeTurn
  simp only [withRecord]
  split <;> rfl

theorem afterXpnd_withRecord (n : BitVec 6) (r s : State) :
    afterXpnd n (withRecord r s) = withRecord r (afterXpnd n s) := by
  unfold afterXpnd
  split <;> rfl

theorem afterRnd_withRecord (n : BitVec 6) (r s : State) :
    afterRnd n (withRecord r s) = withRecord r (afterRnd n s) := by
  unfold afterRnd
  split <;> rfl

theorem afterMicro_withRecord (r s : State) : afterMicro (withRecord r s) = withRecord r (afterMicro s) := by
  have hph : (withRecord r s).ph = s.ph := rfl
  unfold afterMicro
  rw [hph]
  split
  · rfl
  · exact afterXpnd_withRecord s.t r (writeW s.t (scheduleWord s.W s.t) s)
  · rfl
  · exact afterRnd_withRecord s.t r (writeV (mix s.v (K s.t) (readW s.t s)) s)
  · rfl

/-- The outcome `o`, from `s'`, is what the step from `s` to `t` is, but for errors and answers; both steps answer the same
code, and the same data unless `readsStatus`. -/
def AnswersAlike (readsStatus : Prop) (s t s' : State) (o : Host.Outcome State Fault Refusal) : Prop :=
  ∃ t', o = .next t' ∧ SameButErrors t t' ∧
    ∃ r x x', t.responses = ⟨r, x⟩ :: s.responses ∧ t'.responses = ⟨r, x'⟩ :: s'.responses ∧ (x = x' ∨ readsStatus)

section answersAlike

variable {readsStatus : Prop} {r s u : State} {o : Host.Outcome State Fault Refusal}

theorem answersAlike_respond {q : Resp} {x x' : Word} (ho : o = .next (respond q x' (withRecord r u)))
    (hu : u.responses = s.responses) (hx : x = x' ∨ readsStatus) :
    AnswersAlike readsStatus s (respond q x u) (withRecord r s) o :=
  ⟨_, ho, sameButErrors_withRecord r u, q, x, x', congrArg _ hu, rfl, hx⟩

theorem answersAlike_raise {c : Cause} (ho : o = .next (raise c (withRecord r s))) :
    AnswersAlike readsStatus s (raise c s) (withRecord r s) o :=
  ⟨_, ho, by simpa [SameButErrors] using sameButErrors_withRecord r s, .err c, 0#32, 0#32, raise_responses c s,
    raise_responses c _, .inl rfl⟩

end answersAlike

/-- A command of the idle core does the same whatever the error flags are, and `RDS` alone answers with them. -/
theorem runCommand_withRecord {s t : State} {c : BitVec 8} {d : Word} (r : State) (hp : s.ph = .idle)
    (h : runCommand c d s = .next t) :
    AnswersAlike (c = 0x50#8) s t (withRecord r s) (runCommand c d (withRecord r s)) := by
  have hp' : (withRecord r s).ph = .idle := hp
  rcases runCommand_next_cases hp h with ⟨-, hd, rfl⟩ | ⟨-, hd, rfl⟩ | ⟨n, -, hd, rfl⟩ |
    ⟨-, hd, ⟨hi, rfl⟩ | ⟨hi, hw, rfl⟩ | ⟨hi, hw, rfl⟩⟩ | ⟨n, -, hd, ⟨hi, rfl⟩ | ⟨hi, rfl⟩⟩ | ⟨hc, hd, rfl⟩ | ⟨hd, rfl⟩
  · exact answersAlike_respond ((runCommand_ok hd).trans (exec_nop_idle hp')) rfl (.inl rfl)
  · exact answersAlike_respond ((runCommand_ok hd).trans (exec_init_idle hp')) rfl (.inl rfl)
  · exact answersAlike_respond ((runCommand_ok hd).trans (exec_ldw_idle hp' n d)) rfl (.inl rfl)
  · exact answersAlike_raise ((runCommand_ok hd).trans (exec_start_notInit hp' hi))
  · exact answersAlike_raise ((runCommand_ok hd).trans (exec_start_incomplete hp' hi hw))
  · exact answersAlike_respond ((runCommand_ok hd).trans (exec_start_ok hp' hi hw)) rfl (.inl rfl)
  · exact answersAlike_raise ((runCommand_ok hd).trans (exec_rdh_notInit hp' hi n))
  · exact answersAlike_respond ((runCommand_ok hd).trans (exec_rdh_ok hp' hi n)) rfl (.inl rfl)
  · exact answersAlike_respond ((runCommand_ok hd).trans (exec_rds_idle hp')) rfl (.inr hc)
  · exact answersAlike_raise (runCommand_illegal hd)

/-- A step does the same whatever the error flags and the earlier answers are: it answers nothing, or a command alike. -/
theorem step_withRecord {s t : State} (r : State) (h : step s = .next t) :
    (∃ t', step (withRecord r s) = .next t' ∧ SameButErrors t t' ∧
      t.responses = s.responses ∧ t'.responses = (withRecord r s).responses) ∨
    AnswersAlike (∃ d es, s.events = .cmd 0x50#8 d :: es) s t (withRecord r s) (step (withRecord r s)) := by
  rcases step_next_cases h with ⟨es, he, rfl⟩ | ⟨hr, hb, hl, rfl⟩ | ⟨hp, ht, c, d, es, he, hc⟩ | ⟨hp, ht, he, rfl⟩
  · exact .inl ⟨_, step_reset (s := withRecord r s) he, ⟨rfl, rfl, rfl, rfl, rfl, rfl, rfl, rfl, rfl⟩, rfl, rfl⟩
  · refine .inl ⟨_, step_busy (s := withRecord r s) hl hb hr, ?_, by simp, by simp⟩
    rw [takeTurn_withRecord, afterMicro_withRecord]
    exact sameButErrors_withRecord r _
  · obtain ⟨t', hc', hs, q, x, x', hx, hx', hd⟩ := runCommand_withRecord (s := { s with events := es }) r hp hc
    refine .inr ⟨t', (step_command (s := withRecord r s) hp ht he).trans hc', hs, q, x, x', hx, hx', hd.imp_right ?_⟩
    rintro rfl
    exact ⟨d, es, he⟩
  · refine .inl ⟨_, step_idle_turn (s := withRecord r s) hp ht he, ?_, by simp, by simp⟩
    rw [takeTurn_withRecord]
    exact sameButErrors_withRecord r _

/-- Settles O40: a refused command sets its flag, `Reset` alone clears one, and no step depends on them. -/
theorem errorFlagsOnlyRecord : Obligations.ErrorFlagsOnlyRecord := by
  refine ⟨⟨rfl, rfl, rfl⟩, fun s t x h => ⟨errorFlag_of_refused h, errorFlag_of_refused h, errorFlag_of_refused h,
    fun hr => ⟨errorFlag_kept (e := .illegal) h hr, errorFlag_kept (e := .notInit) h hr,
      errorFlag_kept (e := .incomplete) h hr⟩⟩, fun s s' t hs h => ?_⟩
  obtain ⟨r, rfl⟩ := exists_eq_withRecord hs
  rcases step_withRecord r h with ⟨t', h', ht, hq⟩ | ⟨t', h', ht, hq⟩
  · exact ⟨t', h', ht, .inl hq⟩
  · exact ⟨t', h', ht, .inr hq⟩

end Sys2Proof.Machine

/-! # The memory and byte order of `20_memory.md` (R50, R51, R56) -/

/-! ## Big-endian words, in and out (R50, R51) -/

namespace Sys2Proof.Machine

/-- The integer of an appended byte: what stands before it moves up by eight bits. -/
theorem toNat_append_byte {n : Nat} (x : BitVec n) (b : Byte) : (x ++ b).toNat = x.toNat * 2 ^ 8 + b.toNat := by
  rw [BitVec.toNat_append, ← Nat.shiftLeft_add_eq_or_of_lt b.isLt, Nat.shiftLeft_eq]

theorem wordOfBytes_toNat (b0 b1 b2 b3 : Byte) : (wordOfBytes b0 b1 b2 b3).toNat =
    b0.toNat * 2 ^ 24 + b1.toNat * 2 ^ 16 + b2.toNat * 2 ^ 8 + b3.toNat := by
  simp only [wordOfBytes, toNat_append_byte]
  omega

theorem blockOf_getElem (P : List Byte) (k : Nat) (i : Fin 16) : (blockOf P k)[i] =
    wordOfBytes (P.getD (64 * k + 4 * i.val) 0) (P.getD (64 * k + 4 * i.val + 1) 0)
      (P.getD (64 * k + 4 * i.val + 2) 0) (P.getD (64 * k + 4 * i.val + 3) 0) := by
  simp [blockOf]

@[simp] theorem bytesOfWord_length (x : Word) : (bytesOfWord x).length = 4 := rfl

theorem bytesOfWord_getElem? (x : Word) (j : Fin 4) :
    (bytesOfWord x)[j.val]? = some (x.extractLsb' (24 - 8 * j.val) 8) := by
  fin_cases j <;> rfl

/-- Words in order as bytes: byte `j` of word `i` stands at `4 * i + j`, for every number of words. -/
theorem flatMap_bytesOfWord_getElem? (xs : List Word) (i : Nat) (j : Fin 4) :
    (xs.flatMap bytesOfWord)[4 * i + j.val]? = xs[i]?.map fun x => x.extractLsb' (24 - 8 * j.val) 8 := by
  induction xs generalizing i with
  | nil => simp
  | cons x xs ih =>
    rw [List.flatMap_cons]
    cases i with
    | zero =>
      rw [List.getElem?_append_left (by simp), Nat.mul_zero, Nat.zero_add, bytesOfWord_getElem?]
      rfl
    | succ i =>
      have hn : 4 * (i + 1) + j.val - (bytesOfWord x).length = 4 * i + j.val := by rw [bytesOfWord_length]; omega
      rw [List.getElem?_append_right (by rw [bytesOfWord_length]; omega), hn, ih, List.getElem?_cons_succ]

theorem digest_length (H : Vector Word 8) : (digest H).length = 32 := by
  simp [digest, List.length_flatMap]

theorem digest_getElem? (H : Vector Word 8) (i : Fin 8) (j : Fin 4) :
    (digest H)[4 * i.val + j.val]? = some (H[i].extractLsb' (24 - 8 * j.val) 8) := by
  rw [digest, flatMap_bytesOfWord_getElem?]
  simp

/-- Settles O58: a block word is the integer of its four bytes, and a digest writes its words out in the same order. -/
theorem bigEndianWords : Obligations.BigEndianWords :=
  ⟨fun P k i => by rw [blockOf_getElem, wordOfBytes_toNat], fun H => ⟨digest_length H, digest_getElem? H⟩⟩

end Sys2Proof.Machine

/-! ## Reads have no side effect (R56) -/

namespace Sys2Proof.Machine

/-- Settles O43: a read that succeeds only answers, so the second one reads the same registers; a refused `RDH` only records
its cause and answers it. -/
theorem readsHaveNoSideEffect : Obligations.ReadsHaveNoSideEffect := by
  rintro s i (⟨n, rfl⟩ | rfl) hp
  · refine ⟨fun h => ?_, fun hi _ => exec_rdh_notInit hp hi n⟩
    have hi : s.INITD = true := h.resolve_right Instr.noConfusion
    exact ⟨readH n s, exec_rdh_ok hp hi n, exec_rdh_ok (s := respond .ok (readH n s) s) hp hi n⟩
  · exact ⟨fun _ => ⟨status s, exec_rds_idle hp, exec_rds_idle (s := respond .ok (status s) s) hp⟩,
      fun _ hne => absurd rfl hne⟩

end Sys2Proof.Machine

/-! # The encodings of `30_encoding.md` (R72 to R78) -/

/-! ## Command words (R72, R74, R75) -/

namespace Sys2Proof.Machine

/-- The command word of `RDH i` as the statements write it is the opcode before the index (R74). -/
theorem rdh_word (i : BitVec 3) : 0x40#8 + i.setWidth 8 = 0b01000#5 ++ i := by
  revert i
  decide

theorem decode_rdh (i : BitVec 3) (d : Word) : decode (.cmd (0x40#8 + i.setWidth 8) d) = .ok (.rdh i) := by
  have zero : ∀ i : BitVec 3, decode (.cmd (0x40#8 + i.setWidth 8) 0#32) = .ok (.rdh i) := by decide
  rw [decode_cmd_data, zero]

/-- Whether a command word is legal does not depend on the data word (R73). -/
theorem decode_illegal_iff_zero_data (c : BitVec 8) (d : Word) :
    decode (.cmd c d) = .error .illegalCommand ↔ decode (.cmd c 0#32) = .error .illegalCommand := by
  rw [decode_cmd_data]
  split
  next n x h => simp [h]
  next => rfl

/-- The words outside every row of R74, by their fields. -/
theorem decode_illegal_of_no_row {c : BitVec 8} (d : Word)
    (hc : c ≠ 0x00#8 ∧ c ≠ 0x10#8 ∧ c.extractLsb' 4 4 ≠ 0x2#4 ∧ c ≠ 0x30#8 ∧
      ¬(c.extractLsb' 4 4 = 0x4#4 ∧ c.getLsbD 3 = false) ∧ c ≠ 0x50#8) :
    decode (.cmd c d) = .error .illegalCommand := by
  rw [decode_illegal_iff_zero_data]
  revert c
  decide

/-- The rows of R74, each a mask and a match. -/
def commandRows : List (BitVec 8 × BitVec 8) :=
  [(0xFF#8, 0x00#8), (0xFF#8, 0x10#8), (0xF0#8, 0x20#8), (0xFF#8, 0x30#8), (0xF8#8, 0x40#8), (0xFF#8, 0x50#8)]

/-- How many rows of R74 select a command word. -/
def rowsSelecting (c : BitVec 8) : Nat := commandRows.countP fun row => c &&& row.1 == row.2

/-- The rows are disjoint (R74). -/
theorem rowsSelecting_le_one : ∀ c, rowsSelecting c ≤ 1 := by decide

/-- A command word is legal exactly when a row selects it (R74). -/
theorem rowsSelecting_eq_one_iff (c : BitVec 8) (d : Word) :
    rowsSelecting c = 1 ↔ decode (.cmd c d) ≠ .error .illegalCommand := by
  rw [ne_eq, decode_illegal_iff_zero_data]
  revert c
  decide

/-- Counting over two fields, the high one `a` and the low one `b` of `n` values each. -/
theorem countP_range_mul (m n : Nat) (p : Nat → Bool) : (List.range (m * n)).countP p =
    ((List.range m).map fun a => (List.range n).countP fun b => p (a * n + b)).sum := by
  induction m with
  | zero => simp
  | succ m ih =>
    rw [Nat.succ_mul, List.range_add, List.countP_append, ih, List.countP_map, List.range_succ, List.map_append,
      List.sum_append]
    simp [Function.comp_def]

/-- Settles O3: every row of R74 decodes to its command, every other word is illegal, and the rows are disjoint. -/
theorem commandMap : Obligations.CommandMap :=
  ⟨fun _ => rfl, fun _ => rfl, decode_ldw, fun _ => rfl, decode_rdh, fun _ => rfl,
    fun _ => decode_illegal_of_no_row, fun c d => ⟨rowsSelecting_le_one c, rowsSelecting_eq_one_iff c d⟩,
    (countP_range_mul 16 16 _).trans (by decide)⟩

/-- The table of R75: the ranges of the illegal command words. -/
theorem decode_illegal_iff_ranges (c : BitVec 8) (d : Word) :
    decode (.cmd c d) = .error .illegalCommand ↔
      (0x01#8 ≤ c ∧ c ≤ 0x0F#8) ∨ (0x11#8 ≤ c ∧ c ≤ 0x1F#8) ∨ (0x31#8 ≤ c ∧ c ≤ 0x3F#8) ∨
        (0x48#8 ≤ c ∧ c ≤ 0x4F#8) ∨ (0x51#8 ≤ c ∧ c ≤ 0x5F#8) ∨ 0x60#8 ≤ c := by
  rw [decode_illegal_iff_zero_data]
  revert c
  decide

/-- Settles O4: the illegal words are those of R75, and the idle core refuses one with `E_ILLEGAL`. -/
theorem illegalWordsRefused : Obligations.IllegalWordsRefused :=
  ⟨decode_illegal_iff_ranges, (countP_range_mul 16 16 _).trans (by decide),
    fun _ _ _ _ hp ht he hd => (step_command hp ht he).trans (runCommand_illegal hd)⟩

end Sys2Proof.Machine

/-! ## Sequencer positions (R77, R78) -/

namespace Sys2Proof.Machine

/-- What the decoder makes of the two fields of a position (R77). -/
theorem decode_seq_append (ph : BitVec 3) (t : BitVec 6) : decode (.seq (ph ++ t)) =
    if ph = 0b000#3 ∧ t = 0#6 then .error .sequencerIdle
    else if ph = 0b001#3 ∧ 16#6 ≤ t then .ok (.xpnd t)
    else if ph = 0b010#3 ∧ t = 0#6 then .ok .loadv
    else if ph = 0b011#3 then .ok (.rnd t)
    else if ph = 0b100#3 ∧ t = 0#6 then .ok .fold
    else .error .unreachablePosition := by
  rw [decode, decodeSeq, seqPhase_append, seqIndex_append]

/-- The positions without a meaning, by their fields (R78). -/
theorem decode_unreachable_iff (ph : BitVec 3) (t : BitVec 6) :
    decode (.seq (ph ++ t)) = .error .unreachablePosition ↔
      (0b101#3 ≤ ph ∨ ((ph = 0b000#3 ∨ ph = 0b010#3 ∨ ph = 0b100#3) ∧ t ≠ 0#6) ∨ (ph = 0b001#3 ∧ t < 16#6)) := by
  rw [decode_seq_append]
  have phases : ∀ ph : BitVec 3, ph = 0b000#3 ∨ ph = 0b001#3 ∨ ph = 0b010#3 ∨ ph = 0b011#3 ∨ ph = 0b100#3 ∨
      ph = 0b101#3 ∨ ph = 0b110#3 ∨ ph = 0b111#3 := by decide
  rcases phases ph with rfl | rfl | rfl | rfl | rfl | rfl | rfl | rfl <;> simp

/-- A core at a position without a meaning refuses to step, unless by `Reset` (R78). -/
theorem step_unreachable {s : State} (hd : decode (.seq (seqWord s)) = .error .unreachablePosition)
    (hr : ∀ es, s.events ≠ .reset :: es) : step s = .refused .unreachablePosition := by
  unfold step advance
  split
  next es he => exact absurd he (hr es)
  next => rw [hd]

/-- Settles O6: the 397 positions of R78, and that no core steps from one. -/
theorem unreachablePositionsRefused : Obligations.UnreachablePositionsRefused :=
  ⟨decode_unreachable_iff, (countP_range_mul 8 64 _).trans (by decide), (countP_range_mul 8 64 _).trans (by decide),
    (countP_range_mul 8 64 _).trans (by decide), (countP_range_mul 8 64 _).trans (by decide),
    (countP_range_mul 8 64 _).trans (by decide), (countP_range_mul 8 64 _).trans (by decide), fun _ => step_unreachable⟩

/-- Settles O5: each position names its micro-operation (R77). -/
theorem positionMap : Obligations.PositionMap :=
  ⟨fun ph t => ⟨seqPhase_append ph t, seqIndex_append ph t⟩, rfl, rfl, fun t h => by simp [decode_seq_append, h], rfl,
    fun t => by simp [decode_seq_append], rfl, fun _ => rfl⟩

end Sys2Proof.Machine

/-! ## The data word of a command, and the data of its answer (R73) -/

namespace Sys2Proof.Machine

theorem ldw_word_field (n : BitVec 4) : (0b0010#4 ++ n).extractLsb' 4 4 = 0x2#4 := by
  revert n
  decide

/-- Only a word of the row `0010iiii` decodes to `LDW` (R74). -/
theorem field_of_decode_ldw {c : BitVec 8} {d x : Word} {n : BitVec 4} (h : decode (.cmd c d) = .ok (.ldw n x)) :
    c.extractLsb' 4 4 = 0x2#4 := by
  rcases decode_cmd_ok h with ⟨-, hi⟩ | ⟨-, hi⟩ | ⟨m, rfl, -⟩ | ⟨-, hi⟩ | ⟨m, -, hi⟩ | ⟨-, hi⟩
  case inr.inr.inl => exact ldw_word_field m
  all_goals cases hi

/-- Outside the row of `LDW` the data word is not decoded (R73). -/
theorem decode_data_irrelevant {c : BitVec 8} (hc : c.extractLsb' 4 4 ≠ 0x2#4) (d : Word) :
    decode (.cmd c d) = decode (.cmd c 0#32) := by
  rw [decode_cmd_data]
  split
  next h => exact absurd (field_of_decode_ldw h) hc
  next => rfl

theorem runCommand_data_irrelevant {c : BitVec 8} (hc : c.extractLsb' 4 4 ≠ 0x2#4) (d d' : Word) (s : State) :
    runCommand c d s = runCommand c d' s := by
  rw [runCommand, runCommand, decode_data_irrelevant hc d, decode_data_irrelevant hc d']

/-- The step of an idle core that is offered a command: it runs it, at its own position (R78, R150). -/
theorem step_offered {s : State} (hp : s.ph = .idle) (c : BitVec 8) (d : Word) (es : List Event) :
    step { s with events := .cmd c d :: es } =
      if s.t = 0#6 then runCommand c d { s with events := es } else .refused .unreachablePosition := by
  split
  next ht => exact step_command hp ht rfl
  next ht => exact step_unreachable (by simp [decode_seqWord, hp, ht]) (by simp)

theorem step_data_irrelevant {s : State} {c : BitVec 8} (hp : s.ph = .idle) (hc : c.extractLsb' 4 4 ≠ 0x2#4)
    (d d' : Word) (es : List Event) :
    step { s with events := .cmd c d :: es } = step { s with events := .cmd c d' :: es } := by
  rw [step_offered hp, step_offered hp, runCommand_data_irrelevant hc d d']

/-- From `s` to `t` the command word `c` is answered once, in one of three ways (R73): with no data, where nothing is read;
with `STATUS`, to `RDS`; with a word of `H`, to an `RDH` that is not refused. -/
def AnswersCommand (c : BitVec 8) (s t : State) : Prop :=
  ∃ r x, t.responses = ⟨r, x⟩ :: s.responses ∧
    ((x = 0#32 ∧ c ≠ 0x50#8 ∧ (r = .ok → ∀ n : BitVec 3, c ≠ 0x40#8 + n.setWidth 8)) ∨
      (r = .ok ∧ c = 0x50#8 ∧ x = status s) ∨
      (r = .ok ∧ ∃ n : BitVec 3, c = 0x40#8 + n.setWidth 8 ∧ x = readH n s))

theorem answersCommand_ok {c : BitVec 8} {s u : State} (hu : u.responses = s.responses) (hc : c ≠ 0x50#8)
    (hn : ∀ n : BitVec 3, c ≠ 0x40#8 + n.setWidth 8) : AnswersCommand c s (respond .ok 0#32 u) :=
  ⟨.ok, 0#32, congrArg _ hu, .inl ⟨rfl, hc, fun _ => hn⟩⟩

theorem answersCommand_raise {c : BitVec 8} {s : State} (e : Cause) (hc : c ≠ 0x50#8) : AnswersCommand c s (raise e s) :=
  ⟨.err e, 0#32, raise_responses e s, .inl ⟨rfl, hc, fun h => nomatch h⟩⟩

/-- No word of `RDH` is that of `RDS`. -/
theorem rdh_word_ne_rds (n : BitVec 3) : 0x40#8 + n.setWidth 8 ≠ 0x50#8 := by
  revert n
  decide

theorem rdh_word_injective {n m : BitVec 3} : 0x40#8 + n.setWidth 8 = 0x40#8 + m.setWidth 8 → n = m := by
  revert n m
  decide

/-- Every command the idle core runs is answered with the data it calls for. -/
theorem runCommand_answersCommand {s t : State} {c : BitVec 8} {d : Word} (hp : s.ph = .idle)
    (h : runCommand c d s = .next t) : AnswersCommand c s t := by
  have ldw_not_read : ∀ n : BitVec 4, 0b0010#4 ++ n ≠ 0x50#8 ∧ ∀ m : BitVec 3, 0b0010#4 ++ n ≠ 0x40#8 + m.setWidth 8 := by
    decide
  rcases runCommand_next_cases hp h with ⟨rfl, -, rfl⟩ | ⟨rfl, -, rfl⟩ | ⟨n, rfl, -, rfl⟩ |
    ⟨rfl, -, ⟨-, rfl⟩ | ⟨-, -, rfl⟩ | ⟨-, -, rfl⟩⟩ | ⟨n, hc, -, ⟨-, rfl⟩ | ⟨-, rfl⟩⟩ | ⟨rfl, -, rfl⟩ | ⟨hd, rfl⟩
  · exact answersCommand_ok rfl (by decide) (by decide)
  · exact answersCommand_ok rfl (by decide) (by decide)
  · exact answersCommand_ok rfl (ldw_not_read n).1 (ldw_not_read n).2
  · exact answersCommand_raise .notInit (by decide)
  · exact answersCommand_raise .incomplete (by decide)
  · exact answersCommand_ok rfl (by decide) (by decide)
  · exact answersCommand_raise .notInit (by rw [hc, ← rdh_word]; exact rdh_word_ne_rds n)
  · exact ⟨.ok, _, rfl, .inr (.inr ⟨rfl, n, hc.trans (rdh_word n).symm, rfl⟩)⟩
  · exact ⟨.ok, _, rfl, .inr (.inl ⟨rfl, rfl, rfl⟩)⟩
  · exact answersCommand_raise .illegal (by rintro rfl; cases hd)

/-- Settles O8: the data word reaches `LDW` alone, and an answer carries the word read or zero. -/
theorem wdataReadByLdwOnly : Obligations.WdataReadByLdwOnly := by
  refine ⟨fun i d => ?_, fun s c d d' es hp hc => step_data_irrelevant hp hc d d' es, fun s t c d es hp he h => ?_⟩
  · rw [← ldw_word, decode_ldw]
  · obtain ⟨r, x, ht, hx⟩ := runCommand_answersCommand (s := { s with events := es }) hp (runCommand_of_step hp he h)
    refine ⟨r, x, ht, ?_⟩
    rcases hx with ⟨rfl, hrds, hrdh⟩ | ⟨rfl, rfl, rfl⟩ | ⟨rfl, n, rfl, rfl⟩
    · exact ⟨fun _ => rfl, fun hc => absurd hc hrds, fun i hc hr => absurd hc (hrdh hr i), fun _ => rfl⟩
    · exact ⟨fun hr => absurd rfl hr, fun _ => ⟨rfl, rfl⟩, fun i hc => absurd hc.symm (rdh_word_ne_rds i),
        fun hc => absurd rfl hc.1⟩
    · exact ⟨fun hr => absurd rfl hr, fun hc => absurd hc (rdh_word_ne_rds n),
        fun i hc _ => by rw [rdh_word_injective hc]; rfl, fun hc => absurd rfl (hc.2 n)⟩

end Sys2Proof.Machine

/-! # The rotator, the shifter and the sigma functions of `40_datapath_units.md` (R92, R93, R97 to R100) -/

namespace Sys2Proof.Machine

/-- The rotator is the library's rotation, whose amount is modulo the width as well (R92, D20). -/
theorem rotr_eq_rotateRight (x : Word) (n : Nat) : rotr x n = x.rotateRight n := rfl

/-- R92's second line: bit `j` of a rotated word is bit `j + n` of the word, counted modulo 32. -/
theorem getLsbD_rotr (x : Word) (n : Nat) {j : Nat} (hj : j < 32) : (rotr x n).getLsbD j = x.getLsbD ((j + n) % 32) := by
  rw [rotr_eq_rotateRight, BitVec.getLsbD_rotateRight]
  by_cases below : j < 32 - n % 32
  · have source : (j + n) % 32 = n % 32 + j := by omega
    rw [decide_eq_true below, cond_true, source]
  · have source : (j + n) % 32 = j - (32 - n % 32) := by omega
    rw [decide_eq_false below, cond_false, decide_eq_true hj, Bool.true_and, source]

/-- R93's first line: the shift divides, rounding down. -/
theorem toNat_shr (x : Word) (n : Fin 32) : (shr x n).toNat = x.toNat / 2 ^ n.val := by
  rw [shr, BitVec.toNat_ushiftRight, Nat.shiftRight_eq_div_pow]

/-- A shifted word takes each bit from `n` places higher; above bit 31 `getLsbD` reads zero. -/
theorem getLsbD_shr (x : Word) (n : Fin 32) (j : Nat) : (shr x n).getLsbD j = x.getLsbD (j + n.val) := by
  rw [shr, BitVec.getLsbD_ushiftRight, Nat.add_comm]

/-- Settles O52: the shift is a division by a power of two, and zeros enter at the top. -/
theorem shrBitByBit : Obligations.ShrBitByBit := by
  refine ⟨toNat_shr, fun x n j => ?_⟩
  rw [getLsbD_shr]
  by_cases inside : j + n.val ≤ 31
  · rw [decide_eq_true inside, Bool.true_and]
  · rw [decide_eq_false inside, Bool.false_and, BitVec.getLsbD_of_ge x _ (by omega)]

/-- Settles O55: every sigma function is the xor of its three terms, each read by its own bit line (R92, R93). -/
theorem sigmasBitByBit : Obligations.SigmasBitByBit := by
  intro x j hj
  refine ⟨?bsig0, ?bsig1, ?ssig0, ?ssig1⟩
  case bsig0 => simp only [bsig0, BitVec.getLsbD_xor, getLsbD_rotr x _ hj]
  case bsig1 => simp only [bsig1, BitVec.getLsbD_xor, getLsbD_rotr x _ hj]
  case ssig0 => simp [ssig0, getLsbD_rotr x _ hj, getLsbD_shr]
  case ssig1 => simp [ssig1, getLsbD_rotr x _ hj, getLsbD_shr]

end Sys2Proof.Machine

/-! # The message schedule expander of `42_schedule_expander.md` (R121, R122) -/

/-! ## One word of the recurrence, and `XPND` (R122) -/

namespace Sys2Proof.Machine

/-- The sum of R122, with the words it reads named by their 6-bit indices. -/
theorem scheduleWord_eq (w : Vector Word 64) (t : BitVec 6) : scheduleWord w t =
    w[(t - 16#6).toNat] + ssig0 w[(t - 15#6).toNat] + w[(t - 7#6).toNat] + ssig1 w[(t - 2#6).toNat] := by
  simp [scheduleWord, sum32, add32]

theorem scheduleWord_readW (s : State) (t : BitVec 6) : scheduleWord s.W t =
    readW (t - 16#6) s + ssig0 (readW (t - 15#6) s) + readW (t - 7#6) s + ssig1 (readW (t - 2#6) s) :=
  scheduleWord_eq s.W t

/-- From index 16 on, no index that `XPND` reads wraps around (R122, corner cases). -/
theorem schedule_indices_no_wrap {t : BitVec 6} (h : 16#6 ≤ t) :
    (t - 16#6).toNat = t.toNat - 16 ∧ (t - 15#6).toNat = t.toNat - 15 ∧ (t - 7#6).toNat = t.toNat - 7 ∧
      (t - 2#6).toNat = t.toNat - 2 := by
  have no_wrap {k : BitVec 6} (hk : k ≤ 16#6) : (t - k).toNat = t.toNat - k.toNat :=
    BitVec.toNat_sub_of_le (BitVec.le_trans hk h)
  exact ⟨no_wrap (by decide), no_wrap (by decide), no_wrap (by decide), no_wrap (by decide)⟩

/-- At the position that names it, `XPND t` writes the word of the recurrence and moves on (R122). -/
theorem exec_xpnd_here {t : BitVec 6} {s : State} (h : 16#6 ≤ t) (hp : s.ph = .expand) (ht : s.t = t) :
    exec (.xpnd t) s = .next (afterXpnd t (writeW t (scheduleWord s.W t) s)) :=
  (if_pos h).trans (atPosition_here hp ht)

/-- Whether or not `t` is the last index, `XPND t` ends in one move of the sequencer, to the position of R122. -/
theorem afterXpnd_eq_moveTo (t : BitVec 6) (s : State) : ∃ p n, afterXpnd t s = moveTo p n s ∧
    (t < 63#6 → p = .expand ∧ n = t + 1#6) ∧ (t = 63#6 → p = .loadv ∧ n = 0#6) := by
  rcases afterXpnd_cases t s with ⟨ht, h⟩ | ⟨rfl, h⟩
  · exact ⟨_, _, h, fun _ => ⟨rfl, rfl⟩, fun last => by simp [last] at ht⟩
  · exact ⟨_, _, h, fun below => by simp at below, fun _ => ⟨rfl, rfl⟩⟩

/-- Settles O24: `XPND t` writes the word of the recurrence at `t` and moves the sequencer, and writes nothing else. -/
theorem xpndComputesOneWord : Obligations.XpndComputesOneWord := by
  intro t s h16 hp ht
  obtain ⟨-, -, -, decode_xpnd, -⟩ := positionMap
  obtain ⟨p, n, hu, hbelow, hlast⟩ := afterXpnd_eq_moveTo t (writeW t (scheduleWord s.W t) s)
  refine ⟨decode_xpnd t h16, _, (exec_xpnd_here h16 hp ht).trans (congrArg _ hu), ?word,
    schedule_indices_no_wrap h16, fun j hj => ?others, hbelow, hlast, rfl, rfl, ⟨rfl, rfl, rfl, rfl, rfl⟩, rfl, rfl, rfl⟩
  case word => rw [readW_congr (moveTo_W ..), readW_writeW_same, scheduleWord_readW]
  case others => rw [readW_congr (moveTo_W ..), readW_writeW_other _ s hj]

end Sys2Proof.Machine

/-! ## The schedule of a block (R121) -/

namespace Sys2Proof.Machine

/-- The index of the `n`-th of the 48 expansion steps. -/
theorem stepIndex_toNat {n : Nat} (hn : n < 48) : (BitVec.ofNat 6 (16 + n)).toNat = 16 + n := by
  rw [BitVec.toNat_ofNat, Nat.mod_eq_of_lt (by omega)]

/-- The word of the `n`-th expansion step, at index `16 + n`, by the recurrence of R121. -/
theorem scheduleWord_stepIndex (w : Vector Word 64) {n : Nat} (hn : n < 48) :
    scheduleWord w (BitVec.ofNat 6 (16 + n)) = w[n] + ssig0 w[n + 1] + w[n + 9] + ssig1 w[n + 14] := by
  have ht := stepIndex_toNat hn
  generalize BitVec.ofNat 6 (16 + n) = t at ht ⊢
  obtain ⟨h16, h15, h7, h2⟩ : (t - 16#6).toNat = n ∧ (t - 15#6).toNat = n + 1 ∧ (t - 7#6).toNat = n + 9 ∧
      (t - 2#6).toNat = n + 14 := by
    obtain ⟨h16, h15, h7, h2⟩ := schedule_indices_no_wrap (t := t) (by rw [BitVec.le_def, ht]; simp)
    omega
  simp only [scheduleWord_eq, h16, h15, h7, h2]

/-- The `n`-th step of the expansion writes the word at `16 + n` and no other. -/
theorem expandSteps_succ_getElem (w : Vector Word 64) {n j : Nat} (hn : n < 48) (hj : j < 64) :
    (expandSteps w (n + 1))[j] =
      if 16 + n = j then scheduleWord (expandSteps w n) (BitVec.ofNat 6 (16 + n)) else (expandSteps w n)[j] := by
  simp only [expandSteps, Vector.getElem_set, stepIndex_toNat hn]

/-- A word below `16 + n` is settled after `n` steps: the later ones leave it. -/
theorem expandSteps_settled (w : Vector Word 64) {n m j : Nat} (hj : j < 16 + n) (hnm : n ≤ m) (hm : m ≤ 48) :
    (expandSteps w m)[j] = (expandSteps w n)[j] := by
  induction m, hnm using Nat.le_induction with
  | base => rfl
  | succ m hnm ih => rw [expandSteps_succ_getElem w (by omega), if_neg (by omega), ih (by omega)]

/-- Expanding any memory that begins with a block gives a schedule of the block (R121), whatever its other words are. -/
theorem isSchedule_expandSteps {M : Vector Word 16} {w : Vector Word 64} (hw : ∀ i : Fin 16, w[i.val] = M[i]) :
    IsSchedule M (expandSteps w 48) := by
  refine ⟨fun i => ?block, fun i => ?recurrence⟩
  case block => exact (expandSteps_settled w (n := 0) (by omega) (by omega) (by omega)).trans (hw i)
  case recurrence =>
    have settled {j : Nat} (hj : j < 16 + i.val) : (expandSteps w 48)[j] = (expandSteps w i)[j] :=
      expandSteps_settled w hj (by omega) (by omega)
    calc (expandSteps w 48)[i.val + 16]
      _ = (expandSteps w (i + 1))[i.val + 16] := expandSteps_settled w (by omega) (by omega) (by omega)
      _ = scheduleWord (expandSteps w i) (BitVec.ofNat 6 (16 + i)) := by
        rw [expandSteps_succ_getElem w i.isLt, if_pos (by omega)]
      _ = (expandSteps w 48)[i.val] + ssig0 (expandSteps w 48)[i.val + 1] + (expandSteps w 48)[i.val + 9] +
          ssig1 (expandSteps w 48)[i.val + 14] := by
        rw [scheduleWord_stepIndex _ i.isLt, settled (by omega), settled (by omega), settled (by omega), settled (by omega)]

/-- A block has at most one schedule: each word from 16 on is given by words of lower index (R121). -/
theorem isSchedule_unique {M : Vector Word 16} {w w' : Vector Word 64} (h : IsSchedule M w) (h' : IsSchedule M w') :
    w = w' := by
  obtain ⟨block, recurrence⟩ := h
  obtain ⟨block', recurrence'⟩ := h'
  apply Vector.ext
  intro j hj
  induction j using Nat.strong_induction_on with
  | _ j ih =>
    by_cases low : j < 16
    · exact (block ⟨j, low⟩).trans (block' ⟨j, low⟩).symm
    · obtain ⟨i, rfl⟩ : ∃ i, j = i + 16 := ⟨j - 16, by omega⟩
      have step := recurrence ⟨i, by omega⟩
      have step' := recurrence' ⟨i, by omega⟩
      rw [step, step', ih i (by omega), ih (i + 1) (by omega), ih (i + 9) (by omega), ih (i + 14) (by omega)]

theorem isSchedule_expand (M : Vector Word 16) : IsSchedule M (expand M) :=
  isSchedule_expandSteps fun i => Vector.getElem_append_left i.isLt

/-- Settles O30: `expand(M)` is a schedule of `M`, and there is no other. -/
theorem expandIsTheSchedule : Obligations.ExpandIsTheSchedule := fun M _ =>
  ⟨fun h => isSchedule_unique h (isSchedule_expand M), fun h => h ▸ isSchedule_expand M⟩

end Sys2Proof.Machine

/-! # The compressor of `43_compressor.md` (R130 to R132) -/

namespace Sys2Proof.Machine

/-- Settles O25: at its position `LOADV` gives the state of its rule, which writes `v` and the position alone (R130). -/
theorem loadvCopiesH : Obligations.LoadvCopiesH := by
  obtain ⟨-, -, -, -, decode_loadv, -⟩ := positionMap
  exact ⟨decode_loadv, fun _ => atPosition_here⟩

end Sys2Proof.Machine

/-! ## The round (R131, R132) -/

namespace Sys2Proof.Machine

/-- The round function of R131, its two sums written out. -/
theorem mix_eq (a b c d e f g h k w : Word) : mix #v[a, b, c, d, e, f, g, h] k w =
    let temp1 := h + bsig1 e + ch e f g + k + w
    #v[temp1 + (bsig0 a + maj a b c), a, b, c, d + temp1, e, f, g] := by
  simp [mix, sum32, add32]

/-- At the position that names it, `RND t` writes the mixed working words and moves on (R132). -/
theorem exec_rnd_here {t : BitVec 6} {s : State} (hp : s.ph = .round) (ht : s.t = t) :
    exec (.rnd t) s = .next (afterRnd t (writeV (mix s.v (K t) (readW t s)) s)) :=
  atPosition_here hp ht

/-- Whether or not `t` is the last index, `RND t` ends in one move of the sequencer, to the position of R132. -/
theorem afterRnd_eq_moveTo (t : BitVec 6) (s : State) : ∃ p n, afterRnd t s = moveTo p n s ∧
    (t < 63#6 → p = .round ∧ n = t + 1#6) ∧ (t = 63#6 → p = .fold ∧ n = 0#6) := by
  rcases afterRnd_cases t s with ⟨ht, h⟩ | ⟨rfl, h⟩
  · exact ⟨_, _, h, fun _ => ⟨rfl, rfl⟩, fun last => by simp [last] at ht⟩
  · exact ⟨_, _, h, fun below => by simp at below, fun _ => ⟨rfl, rfl⟩⟩

/-- Settles O26: `RND t` writes the words of the round function and moves the sequencer, and writes nothing else. -/
theorem rndMixesTheWorkingWords : Obligations.RndMixesTheWorkingWords := by
  intro t s a b c d e f g h hp ht hv
  obtain ⟨-, -, -, -, -, decode_rnd, -⟩ := positionMap
  obtain ⟨p, n, hu, hbelow, hlast⟩ := afterRnd_eq_moveTo t (writeV (mix s.v (K t) (readW t s)) s)
  refine ⟨decode_rnd t, _, (exec_rnd_here hp ht).trans (congrArg _ hu), ?words,
    hbelow, hlast, rfl, rfl, ⟨rfl, rfl, rfl, rfl, rfl⟩, rfl, rfl, rfl⟩
  case words => rw [moveTo_v, writeV_v, hv, mix_eq]

end Sys2Proof.Machine

/-! # The sequencer of `45_sequencer_control.md` (R171) -/

namespace Sys2Proof.Machine

/-- The condition on which an idle core leaves `(IDLE, 0)` (R171): a `START` is offered, whatever its data word, and both of
its preconditions hold (R154). -/
def StartAccepted (s : State) : Prop :=
  s.INITD = true ∧ s.WV = 0xFFFF#16 ∧ ∃ d es, s.events = .cmd 0x30#8 d :: es

/-- Every command but a `START` with both preconditions met leaves the sequencer at its position. -/
theorem runCommand_position_kept {s t : State} {c : BitVec 8} {d : Word} (hp : s.ph = .idle)
    (h : runCommand c d s = .next t) (hc : ¬(c = 0x30#8 ∧ s.INITD = true ∧ s.WV = 0xFFFF#16)) :
    t.ph = s.ph ∧ t.t = s.t := by
  rcases runCommand_next_cases hp h with ⟨-, -, rfl⟩ | ⟨-, -, rfl⟩ | ⟨n, -, -, rfl⟩ |
    ⟨hstart, -, ⟨-, rfl⟩ | ⟨-, -, rfl⟩ | ⟨hi, hw, -⟩⟩ | ⟨n, -, -, ⟨-, rfl⟩ | ⟨-, rfl⟩⟩ | ⟨-, -, rfl⟩ | ⟨-, rfl⟩
  case inr.inr.inr.inl.inr.inr => exact absurd ⟨hstart, hi, hw⟩ hc
  all_goals simp

/-- An accepted `START` takes the idle core to `(EXPAND, 16)`. -/
theorem step_position_of_startAccepted {s t : State} (h : step s = .next t) (hp : s.ph = .idle) (ha : StartAccepted s) :
    t.ph = .expand ∧ t.t = 16#6 := by
  obtain ⟨hi, hw, d, es, he⟩ := ha
  have hc := runCommand_of_step hp he h
  rw [runCommand_ok (i := .start) rfl, exec_start_ok (s := { s with events := es }) hp hi hw] at hc
  cases hc
  exact ⟨rfl, rfl⟩

/-- Without an accepted `START` the idle core, unless by `Reset`, stays where it is. -/
theorem step_position_of_not_startAccepted {s t : State} (h : step s = .next t) (hr : ∀ es, s.events ≠ .reset :: es)
    (hp : s.ph = .idle) (ha : ¬StartAccepted s) : t.ph = .idle ∧ t.t = s.t := by
  rcases step_next_cases h with ⟨es, he, -⟩ | ⟨-, hb, -⟩ | ⟨-, -, c, d, es, he, hc⟩ | ⟨-, -, -, rfl⟩
  · exact absurd he (hr es)
  · exact absurd hp hb
  · rw [← hp]
    refine runCommand_position_kept (s := { s with events := es }) hp hc ?_
    rintro ⟨rfl, hi, hw⟩
    exact ha ⟨hi, hw, d, es, he⟩
  · simp [hp]

/-- A completed step of a busy core, unless it is a `Reset`, moves by the table of R171. -/
theorem step_position_busy {s t : State} (h : step s = .next t) (hr : ∀ es, s.events ≠ .reset :: es) (hb : s.ph ≠ .idle) :
    nextPosition s.ph s.t = some (t.ph, t.t) := by
  rcases step_next_cases h with ⟨es, he, -⟩ | ⟨-, -, hl, rfl⟩ | ⟨hp, -⟩ | ⟨hp, -⟩
  · exact absurd he (hr es)
  · have moved := afterMicro_position (legalPosition_takeTurn.mpr hl) (by simpa using hb)
    rwa [takeTurn_ph, takeTurn_t] at moved
  · exact absurd hp hb
  · exact absurd hp hb

/-- Settles O28: the table of R171 for a busy core, an accepted `START` as the one way out of `(IDLE, 0)`, and `Reset`. -/
theorem sequencerTransitions : Obligations.SequencerTransitions := by
  refine fun s t h => ⟨fun es he => ?reset, fun hr => ⟨step_position_busy h hr, fun hp => ?idle⟩⟩
  case reset =>
    rw [step_reset he] at h
    cases h
    exact ⟨rfl, rfl⟩
  case idle =>
    by_cases ha : StartAccepted s
    · obtain ⟨hph, ht⟩ := step_position_of_startAccepted h hp ha
      exact .inl ⟨hph, ht, ha⟩
    · obtain ⟨hph, ht⟩ := step_position_of_not_startAccepted h hr hp ha
      exact .inr ⟨hph, ht, ha⟩

end Sys2Proof.Machine

/-! # The exceptions of `60_exceptions.md` (R200 to R206) and `busy` (R210) -/

/-! ## The cause of a refusal (R201 to R203, R205) -/

namespace Sys2Proof.Machine

/-- The preconditions of the cause `e` (R201 to R203): what makes the idle core refuse `Cmd(c, d)` for it. -/
def RefusedFor (e : Cause) (c : BitVec 8) (d : Word) (s : State) : Prop :=
  match e with
  | .illegal => decode (.cmd c d) = .error .illegalCommand
  | .notInit => (decode (.cmd c d) = .ok .start ∨ ∃ i, decode (.cmd c d) = .ok (.rdh i)) ∧ s.INITD = false
  | .incomplete => decode (.cmd c d) = .ok .start ∧ s.INITD = true ∧ s.WV ≠ 0xFFFF#16

/-- Between the causes that can refuse a command, the fixed order decides: the word alone, then `INITD`, then `WV` (R205). -/
theorem refusedFor_order {e : Cause} {c : BitVec 8} {d : Word} {s : State} (h : RefusedFor e c d s) :
    (e = .illegal ↔ decode (.cmd c d) = .error .illegalCommand) ∧
      (e = .notInit ↔ decode (.cmd c d) ≠ .error .illegalCommand ∧ s.INITD = false) ∧
      (e = .incomplete ↔ decode (.cmd c d) ≠ .error .illegalCommand ∧ s.INITD = true ∧ s.WV ≠ 0xFFFF#16) := by
  cases e with
  | illegal =>
    have illegal : decode (.cmd c d) = .error .illegalCommand := h
    simp [illegal]
  | notInit =>
    obtain ⟨hd | ⟨i, hd⟩, hi⟩ := h
    · simp [hd, hi]
    · simp [hd, hi]
  | incomplete =>
    obtain ⟨hd, hi, hw⟩ := h
    simp [hd, hi, hw]

/-- A command is refused for one cause at most (R205). -/
theorem refusedFor_unique {e e' : Cause} {c : BitVec 8} {d : Word} {s : State} (h : RefusedFor e c d s)
    (h' : RefusedFor e' c d s) : e' = e := by
  obtain ⟨hill, hnin, hinc⟩ := refusedFor_order h
  obtain ⟨hill', hnin', hinc'⟩ := refusedFor_order h'
  cases e' with
  | illegal => exact (hill.mpr (hill'.mp rfl)).symm
  | notInit => exact (hnin.mpr (hnin'.mp rfl)).symm
  | incomplete => exact (hinc.mpr (hinc'.mp rfl)).symm

/-- A command that nothing refuses is a legal one whose preconditions hold (`44_host_commands.md` section 4). -/
theorem not_refusedFor_iff {c : BitVec 8} {d : Word} {s : State} : (∀ e, ¬RefusedFor e c d s) ↔
    ∃ i, decode (.cmd c d) = .ok i ∧ (i = .start → s.INITD = true ∧ s.WV = 0xFFFF#16) ∧
      ∀ n, i = .rdh n → s.INITD = true := by
  constructor
  · intro h
    cases hd : decode (.cmd c d) with
    | error r => exact absurd (hd.trans (congrArg _ (decode_cmd_error hd))) (h .illegal)
    | ok i =>
      have initialised (hi : i = .start ∨ ∃ n, i = .rdh n) : s.INITD = true := by
        by_contra hn
        exact h .notInit ⟨by simpa [hd] using hi, by simpa using hn⟩
      refine ⟨i, rfl, fun hi => ⟨initialised (.inl hi), ?_⟩, fun n hi => initialised (.inr ⟨n, hi⟩)⟩
      by_contra hw
      exact h .incomplete ⟨hd.trans (congrArg _ hi), initialised (.inl hi), hw⟩
  · rintro ⟨i, hd, hstart, hrdh⟩ (_ | _ | _) h
    case illegal => exact nomatch hd.symm.trans h
    case notInit =>
      obtain ⟨hs | ⟨n, hs⟩, hi⟩ := h
      · simp [(hstart (by simpa [hd] using hs)).1] at hi
      · simp [hrdh n (by simpa [hd] using hs)] at hi
    case incomplete =>
      obtain ⟨hs, -, hw⟩ := h
      exact hw (hstart (by simpa [hd] using hs)).2

/-- A command accepted by the idle core is refused for its cause, which is all that happens (R206), or answered `OK`. -/
theorem runCommand_refused_or_ok {s t : State} {c : BitVec 8} {d : Word} (hp : s.ph = .idle)
    (h : runCommand c d s = .next t) :
    (∃ e, RefusedFor e c d s ∧ t = raise e s) ∨
      ((∀ e, ¬RefusedFor e c d s) ∧ ∃ x, t.responses = ⟨.ok, x⟩ :: s.responses) := by
  rcases runCommand_next_cases hp h with ⟨-, hd, rfl⟩ | ⟨-, hd, rfl⟩ | ⟨n, -, hd, rfl⟩ |
    ⟨-, hd, ⟨hi, ht⟩ | ⟨hi, hw, ht⟩ | ⟨hi, hw, rfl⟩⟩ | ⟨n, -, hd, ⟨hi, ht⟩ | ⟨hi, rfl⟩⟩ | ⟨-, hd, rfl⟩ | ⟨hd, ht⟩
  · exact .inr ⟨not_refusedFor_iff.mpr ⟨_, hd, nofun, nofun⟩, _, rfl⟩
  · exact .inr ⟨not_refusedFor_iff.mpr ⟨_, hd, nofun, nofun⟩, _, rfl⟩
  · exact .inr ⟨not_refusedFor_iff.mpr ⟨_, hd, nofun, nofun⟩, _, rfl⟩
  · exact .inl ⟨.notInit, ⟨.inl hd, hi⟩, ht⟩
  · exact .inl ⟨.incomplete, ⟨hd, hi, hw⟩, ht⟩
  · exact .inr ⟨not_refusedFor_iff.mpr ⟨_, hd, fun _ => ⟨hi, hw⟩, nofun⟩, _, rfl⟩
  · exact .inl ⟨.notInit, ⟨.inr ⟨n, hd⟩, hi⟩, ht⟩
  · exact .inr ⟨not_refusedFor_iff.mpr ⟨_, hd, nofun, fun _ _ => hi⟩, _, rfl⟩
  · exact .inr ⟨not_refusedFor_iff.mpr ⟨_, hd, nofun, nofun⟩, _, rfl⟩
  · exact .inl ⟨.illegal, hd, ht⟩

end Sys2Proof.Machine

/-! ## Taking an exception (R202, R203, R206) -/

namespace Sys2Proof.Machine

/-- Settles O15: with `INITD = 0` the idle core refuses `START` and every `RDH`. -/
theorem notInitIsRefused : Obligations.NotInitIsRefused := by
  rintro i s (rfl | ⟨n, rfl⟩) hp hi
  · exact exec_start_notInit hp hi
  · exact exec_rdh_notInit hp hi n

/-- `WV` is short of `0xFFFF` exactly when a block word is missing. -/
theorem WV_ne_full_iff (w : BitVec 16) : w ≠ 0xFFFF#16 ↔ ∃ k, k < 16 ∧ w.getLsbD k = false := by
  have full : ∀ k < 16, (0xFFFF#16).getLsbD k = true := by decide
  constructor
  · intro hw
    by_contra hall
    push Not at hall
    exact hw (BitVec.eq_of_getLsbD_eq fun k hk => by simpa [full k hk] using hall k hk)
  · rintro ⟨k, hk, hm⟩ rfl
    simp [full k hk] at hm

/-- Settles O16: with `INITD = 1` the idle core refuses `START` while a block word is missing. -/
theorem incompleteIsRefused : Obligations.IncompleteIsRefused := fun s i hp hi hm =>
  exec_start_incomplete hp hi ((WV_ne_full_iff s.WV).mpr ⟨i.toNat, i.isLt, hm⟩)

/-- All that taking an exception writes: the flag of its cause, and the answer (R206). -/
theorem raise_eq (e : Cause) (s : State) : raise e s =
    { s with
      EILL := s.EILL || decide (e = .illegal), ENIN := s.ENIN || decide (e = .notInit),
      EINC := s.EINC || decide (e = .incomplete), responses := ⟨.err e, 0#32⟩ :: s.responses } := by
  cases e <;> simp [raise, respond, setError]

/-- A completed step that gives an answer has run a command offered to the idle core. -/
theorem runCommand_of_answer {s t : State} {r : Response} (h : step s = .next t) (ht : t.responses = r :: s.responses) :
    s.ph = .idle ∧ ∃ c d es, s.events = .cmd c d :: es ∧ runCommand c d { s with events := es } = .next t := by
  rcases step_next_cases h with ⟨es, he, -⟩ | ⟨-, -, -, rfl⟩ | ⟨hp, -, hc⟩ | ⟨-, -, -, rfl⟩
  · exact absurd he (not_reset_of_answer h ht es)
  · simp at ht
  · exact ⟨hp, hc⟩
  · simp at ht

/-- Settles O17: a refused command has one cause, by the order of R205, and raising it is the whole step; `Reset` comes
before everything. -/
theorem refusalSetsOneFlag : Obligations.RefusalSetsOneFlag := by
  refine ⟨fun s t e x h ht => ?_, fun s es he => step_reset he⟩
  obtain ⟨hp, c, d, es, he, hc⟩ := runCommand_of_answer h ht
  refine ⟨hp, c, d, es, he, ?_⟩
  rcases runCommand_refused_or_ok (s := { s with events := es }) hp hc with ⟨e', hr, rfl⟩ | ⟨-, y, hok⟩
  · obtain ⟨rfl, -⟩ : e' = e ∧ 0#32 = x := by simpa using ht
    exact ⟨raise_eq e' { s with events := es }, refusedFor_order hr⟩
  · simp [hok] at ht

end Sys2Proof.Machine

/-! ## The response codes (`30_encoding.md` section 7, R200) -/

namespace Sys2Proof.Machine

/-- The answer of an accepted command: the code is the cause of its refusal, or `OK` when there is none; a refusal carries no
data; and the flag of the code's cause is set, the others kept. -/
theorem runCommand_answer {s t : State} {c : BitVec 8} {d : Word} (hp : s.ph = .idle)
    (h : runCommand c d s = .next t) : ∃ r x, t.responses = ⟨r, x⟩ :: s.responses ∧
      (∀ e, r = .err e ↔ RefusedFor e c d s) ∧ (r = .ok ↔ ∀ e, ¬RefusedFor e c d s) ∧
      (∀ e, errorFlag e t = true ↔ errorFlag e s = true ∨ r = .err e) ∧ (r ≠ .ok → x = 0#32) := by
  obtain ⟨r', x', hx', hflag⟩ := runCommand_answersAndRecords hp h
  rcases runCommand_refused_or_ok hp h with ⟨e, hr, rfl⟩ | ⟨hn, x, hx⟩
  · refine ⟨.err e, 0#32, raise_responses e s, fun e' => ⟨?_, fun hr' => ?_⟩, ?_, fun e' => ?_, fun _ => rfl⟩
    · rintro ⟨⟩
      exact hr
    · rw [refusedFor_unique hr hr']
    · exact ⟨nofun, fun hn => absurd hr (hn e)⟩
    · simp [errorFlag_raise]
  · refine ⟨.ok, x, hx, fun e => ⟨nofun, fun hr => absurd hr (hn e)⟩, ⟨fun _ => hn, fun _ => rfl⟩, fun e => ?_,
      fun hne => absurd rfl hne⟩
    obtain ⟨⟨rfl, -⟩, -⟩ : (r' = .ok ∧ x' = x) ∧ s.responses = s.responses := by simpa using hx'.symm.trans hx
    simp [hflag]

/-- Settles O19: each code means its cause, `OK` means that no cause applies, and a refusal sets the flag of its code. -/
theorem responseTable : Obligations.ResponseTable := by
  refine ⟨rfl, fun s t c d es hp he h => ?_⟩
  obtain ⟨r, x, hx, hcause, hok, hflag, hdata⟩ :=
    runCommand_answer (s := { s with events := es }) hp (runCommand_of_step hp he h)
  refine ⟨r, x, hx, hcause .illegal, hcause .notInit, ?_, hok.trans not_refusedFor_iff, hflag .illegal, hflag .notInit,
    hflag .incomplete, hdata⟩
  rw [← WV_ne_full_iff]
  exact hcause .incomplete

end Sys2Proof.Machine

/-! ## `busy` (R210) -/

namespace Sys2Proof.Machine

theorem busy_eq_true_iff (s : State) : s.busy = true ↔ s.ph ≠ .idle := by simp [State.busy]

theorem busy_eq_false_iff (s : State) : s.busy = false ↔ s.ph = .idle := by simp [State.busy]

/-- An idle core that accepts a `START` with both preconditions met enters the sequencer and answers `OK` (R154). -/
theorem step_start {s : State} {d : Word} {es : List Event} (hp : s.ph = .idle) (ht : s.t = 0#6) (hi : s.INITD = true)
    (hw : s.WV = 0xFFFF#16) (he : s.events = .cmd 0x30#8 d :: es) :
    step s = .next (respond .ok 0#32 (moveTo .expand 16#6 { s with events := es })) :=
  (step_command hp ht he).trans ((runCommand_ok rfl).trans (exec_start_ok (s := { s with events := es }) hp hi hw))

/-- `Reset` or `FOLD`, a step from the position of `FOLD` completes and leaves the core idle. -/
theorem step_fold_idle {s : State} (hp : s.ph = .fold) (ht : s.t = 0#6) : ∃ t, step s = .next t ∧ t.ph = .idle := by
  by_cases hr : ∃ es, s.events = .reset :: es
  · obtain ⟨es, he⟩ := hr
    exact ⟨_, step_reset he, rfl⟩
  · have hr' : ∀ es, s.events ≠ .reset :: es := fun es he => hr ⟨es, he⟩
    have hs := step_busy (s := s) (by simp [LegalPosition, hp, ht]) (by simp [hp]) hr'
    obtain ⟨-, -, hidle⟩ := step_fold hs hr' hp
    exact ⟨_, hs, hidle⟩

/-- In the table of R171 only the row of `FOLD` leads to the idle phase. -/
theorem fold_of_nextPosition_idle {p : Phase} {n m : BitVec 6} (h : nextPosition p n = some (.idle, m)) : p = .fold := by
  cases p with
  | fold => rfl
  | idle => cases h
  | expand => simp [nextPosition, ite_eq_iff] at h
  | loadv => simp [nextPosition] at h
  | round => simp [nextPosition, ite_eq_iff] at h

/-- The only step that raises `busy` is the acceptance of an error-free `START`. -/
theorem step_raises_busy {s t : State} (h : step s = .next t) (hp : s.ph = .idle) (hb : t.ph ≠ .idle) :
    StartAccepted s ∧ Answered .ok 0#32 s t := by
  rcases step_next_cases h with ⟨es, -, rfl⟩ | ⟨-, hbusy, -⟩ | ⟨-, ht, c, d, es, he, hc⟩ | ⟨-, -, -, rfl⟩
  · exact absurd (resetCore_ph _) hb
  · exact absurd hp hbusy
  · obtain ⟨rfl, hi, hw⟩ : c = 0x30#8 ∧ s.INITD = true ∧ s.WV = 0xFFFF#16 := by
      by_contra hn
      exact hb ((runCommand_position_kept (s := { s with events := es }) hp hc hn).1.trans hp)
    rw [step_start hp ht hi hw he] at h
    cases h
    exact ⟨⟨hi, hw, d, es, he⟩, rfl⟩
  · exact absurd ((takeTurn_ph s).trans hp) hb

/-- The only step but `Reset` that lowers `busy` is `FOLD`. -/
theorem step_lowers_busy {s t : State} (h : step s = .next t) (hr : ∀ es, s.events ≠ .reset :: es) (hb : s.ph ≠ .idle)
    (hp : t.ph = .idle) : s.ph = .fold :=
  fold_of_nextPosition_idle (by rw [step_position_busy h hr hb, hp])

/-- Settles O42: `busy` rises at an error-free `START` and falls at `FOLD` or `Reset`, and at no other step. -/
theorem busyRisesAtStartFallsAtFold : Obligations.BusyRisesAtStartFallsAtFold := by
  refine ⟨busy_eq_true_iff, fun s d es hp ht hi hw he => ⟨_, step_start hp ht hi hw he, rfl, rfl⟩, fun s hp ht => ?fold,
    fun s es he => ⟨_, step_reset he, rfl⟩, fun s t h hs hb => ?rises, fun s t h hs hb => ?falls⟩
  case fold =>
    simpa only [busy_eq_false_iff] using step_fold_idle hp ht
  case rises =>
    rw [busy_eq_false_iff] at hs
    rw [busy_eq_true_iff] at hb
    obtain ⟨⟨-, -, hoffered⟩, hok⟩ := step_raises_busy h hs hb
    exact ⟨hoffered, hok⟩
  case falls =>
    rw [busy_eq_true_iff] at hs
    rw [busy_eq_false_iff] at hb
    exact or_iff_not_imp_right.mpr fun hr => step_lowers_busy h (fun es he => hr ⟨es, he⟩) hs hb

end Sys2Proof.Machine

/-! # The encodings of `30_encoding.md` (R74, R77): decoding and encoding undo each other -/

namespace Sys2Proof.Machine

/-- Settles O1: each instruction's code is a word of its own row, from which the decoder reads the operands back. -/
theorem decodeEncodeAgree : Obligations.DecodeEncodeAgree := by
  obtain ⟨-, -, -, decode_xpnd, -, decode_rnd, -⟩ := positionMap
  intro i h
  cases i with
  | nop | init | start | rds | loadv | fold => rfl
  | ldw i x => rw [encode, ← ldw_word, decode_ldw]
  | rdh i => rw [encode, ← rdh_word, decode_rdh]
  | xpnd t => exact decode_xpnd t (of_decide_eq_true h)
  | rnd t => exact decode_rnd t

/-- An accepted position is one of R77, and the micro-operation is its row's. -/
theorem decode_seq_ok {p : BitVec 9} {i : Instr} (h : decode (.seq p) = .ok i) :
    (∃ t : BitVec 6, p = 0b001#3 ++ t ∧ 16#6 ≤ t ∧ i = .xpnd t) ∨ (p = 0b010000000#9 ∧ i = .loadv) ∨
      (∃ t : BitVec 6, p = 0b011#3 ++ t ∧ i = .rnd t) ∨ (p = 0b100000000#9 ∧ i = .fold) := by
  rw [← seq_fields p] at h ⊢
  generalize seqPhase p = ph, seqIndex p = t at h ⊢
  rw [decode_seq_append] at h
  split at h
  next => cases h
  split at h
  next hrow =>
    obtain ⟨rfl, h16⟩ := hrow
    cases h
    exact .inl ⟨t, rfl, h16, rfl⟩
  split at h
  next hrow =>
    obtain ⟨rfl, rfl⟩ := hrow
    cases h
    exact .inr (.inl ⟨rfl, rfl⟩)
  split at h
  next hrow =>
    subst hrow
    cases h
    exact .inr (.inr (.inl ⟨t, rfl, rfl⟩))
  split at h
  next hrow =>
    obtain ⟨rfl, rfl⟩ := hrow
    cases h
    exact .inr (.inr (.inr ⟨rfl, rfl⟩))
  next => cases h

/-- Settles O2: a code the decoder accepts is a word of some row, and the instruction it gives is encoded in that row. -/
theorem encodeDecodeAgree : Obligations.EncodeDecodeAgree := by
  constructor
  · intro c d i h
    rcases decode_cmd_ok h with ⟨rfl, rfl⟩ | ⟨rfl, rfl⟩ | ⟨n, rfl, rfl⟩ | ⟨rfl, rfl⟩ | ⟨n, rfl, rfl⟩ | ⟨rfl, rfl⟩
    all_goals exact ⟨rfl, _, rfl⟩
  · intro p i h
    rcases decode_seq_ok h with ⟨t, rfl, h16, rfl⟩ | ⟨rfl, rfl⟩ | ⟨t, rfl, rfl⟩ | ⟨rfl, rfl⟩
    · exact ⟨decide_eq_true h16, rfl⟩
    all_goals exact ⟨rfl, rfl⟩

/-- Settles O7: each word, decoded by the table. -/
theorem wordsFromTheTablesDecode : Obligations.WordsFromTheTablesDecode :=
  ⟨rfl, rfl, rfl, rfl, rfl, rfl, rfl, rfl, rfl, rfl, rfl, rfl⟩

end Sys2Proof.Machine

/-! # The host commands of `44_host_commands.md` (R150 to R158) -/

/-! ## The commands, one by one (R151 to R156) -/

namespace Sys2Proof.Machine

/-- A command that is run by hand in a busy core is held: nothing happens (log entry 6). -/
theorem exec_command_busy {s : State} {i : Instr} {c : BitVec 8} {d : Word} (hd : decode (.cmd c d) = .ok i)
    (hb : s.ph ≠ .idle) : exec i s = .next s := by
  rcases decode_cmd_ok hd with ⟨-, rfl⟩ | ⟨-, rfl⟩ | ⟨n, -, rfl⟩ | ⟨-, rfl⟩ | ⟨n, -, rfl⟩ | ⟨-, rfl⟩
  all_goals exact accept_busy hb

/-- Settles O9: `NOP` is the word `0x00`, and all it does is answer. -/
theorem nopAnswersAndWritesNothing : Obligations.NopAnswersAndWritesNothing :=
  ⟨fun _ => rfl, fun _ => ⟨exec_nop_idle, exec_command_busy (c := 0x00#8) (d := 0#32) rfl⟩⟩

/-- Word by word, `INIT` loads the whole ROM of R111. -/
theorem ofFn_IV : (Vector.ofFn fun i => IV (BitVec.ofFin i)) = IVROM := rfl

/-- Settles O10: `INIT` is the word `0x10`, and writes `H` and `INITD` alone. -/
theorem initLoadsTheInitialState : Obligations.InitLoadsTheInitialState :=
  ⟨fun _ => rfl, fun _ => ⟨fun hp => ⟨_, exec_init_idle hp, ofFn_IV, rfl, rfl, rfl, rfl, rfl, ⟨rfl, rfl⟩, ⟨rfl, rfl, rfl⟩,
    rfl, rfl⟩, exec_command_busy (c := 0x10#8) (d := 0#32) rfl⟩⟩

/-- Settles O11: `LDW i` is the word `0x20 + i`, and writes `W[i]` and `WV[i]` alone. -/
theorem ldwStoresOneWord : Obligations.LdwStoresOneWord := by
  refine fun i x s => ⟨decode_ldw i x, blockIndex_toNat i, fun hp => ⟨_, exec_ldw_idle hp i x, readW_writeW_same _ x s,
    fun j hj => readW_writeW_other x s hj, ?set, fun k hk => ?kept, rfl, rfl, rfl, rfl, ⟨rfl, rfl⟩, ⟨rfl, rfl, rfl⟩,
    rfl, rfl⟩, exec_command_busy (decode_ldw i x)⟩
  case set => exact (setLoaded_WV_getLsbD i s _).trans (by simp)
  case kept => exact (setLoaded_WV_getLsbD i s k).trans (by simp [hk])

/-- Settles O12: `START` is the word `0x30`, and its two preconditions are tried in order. -/
theorem startEntersTheSequencer : Obligations.StartEntersTheSequencer :=
  ⟨fun _ => rfl, fun _ => ⟨exec_start_ok, exec_start_notInit, exec_start_incomplete,
    exec_command_busy (c := 0x30#8) (d := 0#32) rfl⟩⟩

/-- Settles O13: `RDH i` is the word `0x40 + i`, and answers `H[i]` once `H` is initialised. -/
theorem rdhReadsOneWord : Obligations.RdhReadsOneWord :=
  fun i _ => ⟨decode_rdh i, fun hp hi => exec_rdh_ok hp hi i, fun hp hi => exec_rdh_notInit hp hi i,
    exec_command_busy (decode_rdh i 0#32)⟩

/-- Settles O14: `RDS` is the word `0x50`, and all it does is answer with `STATUS`. -/
theorem rdsReadsStatus : Obligations.RdsReadsStatus :=
  ⟨fun _ => rfl, fun _ => ⟨exec_rds_idle, exec_command_busy (c := 0x50#8) (d := 0#32) rfl⟩⟩

end Sys2Proof.Machine

/-! ## The command step as one function (R158) -/

namespace Sys2Proof.Machine

theorem execCmd_ldw (s : State) (n : BitVec 4) (d : Word) : execCmd s (0b0010#4 ++ n) d =
    (setLoaded n (writeW (blockIndex n) d s), .ok, 0#32) := by
  have fields : ∀ n : BitVec 4, 0b0010#4 ++ n ≠ 0x00#8 ∧ 0b0010#4 ++ n ≠ 0x10#8 ∧
      (0b0010#4 ++ n).extractLsb' 0 4 = n := by decide
  obtain ⟨hnop, hinit, hidx⟩ := fields n
  simp only [execCmd, hnop, hinit, if_false, ldw_word_field, if_true, hidx, setLoaded, writeW, blockIndex_toNat]

theorem execCmd_rdh (s : State) (n : BitVec 3) (d : Word) : execCmd s (0b01000#5 ++ n) d =
    if s.INITD = false then ({ s with ENIN := true }, .err .notInit, 0#32) else (s, .ok, readH n s) := by
  have fields : ∀ n : BitVec 3, let c := 0b01000#5 ++ n
      c ≠ 0x00#8 ∧ c ≠ 0x10#8 ∧ c ≠ 0x30#8 ∧ c.extractLsb' 4 4 = 0x4#4 ∧
        (c.extractLsb' 0 4).getLsbD 3 = false ∧ (c.extractLsb' 0 4).extractLsb' 0 3 = n := by decide
  obtain ⟨hnop, hinit, hstart, hop, hbit, hidx⟩ := fields n
  have hldw : (0x4#4 : BitVec 4) ≠ 0x2#4 := by decide
  simp only [execCmd, hnop, hinit, hstart, hop, hldw, hbit, hidx, if_false, if_true, false_and, true_and, and_self]

theorem execCmd_illegal (s : State) {c : BitVec 8} {d : Word} (hd : decode (.cmd c d) = .error .illegalCommand) :
    execCmd s c d = ({ s with EILL := true }, .err .illegal, 0#32) := by
  have fields : ∀ c, decode (.cmd c 0#32) = .error .illegalCommand →
      c ≠ 0x00#8 ∧ c ≠ 0x10#8 ∧ c.extractLsb' 4 4 ≠ 0x2#4 ∧ c ≠ 0x30#8 ∧
        ¬(c.extractLsb' 4 4 = 0x4#4 ∧ (c.extractLsb' 0 4).getLsbD 3 = false) ∧ c ≠ 0x50#8 := by decide
  obtain ⟨hnop, hinit, hldw, hstart, hrdh, hrds⟩ := fields c ((decode_illegal_iff_zero_data c d).mp hd)
  simp only [execCmd, hnop, hinit, hldw, hstart, ← and_assoc, hrdh, hrds, if_false, false_and]

/-- `exec_cmd` gives its answer beside the state, and records none in it. -/
theorem execCmd_responses (s : State) (c : BitVec 8) (d : Word) : (execCmd s c d).1.responses = s.responses := by
  simp only [execCmd]
  repeat' split
  all_goals rfl

/-- A command of the idle core leaves the state and puts the answer on the port that `exec_cmd` gives for it. -/
theorem runCommand_eq_execCmd {s t : State} {c : BitVec 8} {d : Word} (hp : s.ph = .idle)
    (h : runCommand c d s = .next t) : t = respond (execCmd s c d).2.1 (execCmd s c d).2.2 (execCmd s c d).1 := by
  rcases runCommand_next_cases hp h with ⟨rfl, -, rfl⟩ | ⟨rfl, -, rfl⟩ | ⟨n, rfl, -, rfl⟩ |
    ⟨rfl, -, ⟨hi, rfl⟩ | ⟨hi, hw, rfl⟩ | ⟨hi, hw, rfl⟩⟩ | ⟨n, rfl, -, ⟨hi, rfl⟩ | ⟨hi, rfl⟩⟩ | ⟨rfl, -, rfl⟩ | ⟨hd, rfl⟩
  · rfl
  · rw [ofFn_IV]; rfl
  · rw [execCmd_ldw]
  · simp [execCmd, hi, raise, setError]
  · simp [execCmd, hi, hw, raise, setError]
  · simp [execCmd, hi, hw, moveTo]
  · simp [execCmd_rdh, hi, raise, setError]
  · simp [execCmd_rdh, hi]
  · simp [execCmd]
  · rw [execCmd_illegal s hd]; rfl

/-- Settles O18: the idle core completes its command, and what it then does is `exec_cmd`. -/
theorem commandStepIsExecCmd : Obligations.CommandStepIsExecCmd := by
  intro s c d es hp ht he out
  obtain ⟨t, h⟩ := runCommand_completes (s := { s with events := es }) hp c d
  have hr : out.1.responses = s.responses := execCmd_responses { s with events := es } c d
  rw [step_command hp ht he, h, runCommand_eq_execCmd (s := { s with events := es }) hp h, respond, hr]

end Sys2Proof.Machine

/-! # The sequencer of `45_sequencer_control.md`, step by step (R170 to R175) -/

/-! ## The schedule during a step of the sequencer -/

namespace Sys2Proof.Machine

/-- Turns are used up only where they stand at the head of the schedule. -/
theorem afterTurns_of_no_turn {evs : List Event} (h : ∀ es, evs ≠ .seqStep :: es) (n : Nat) :
    afterTurns n evs = evs := by
  unfold afterTurns
  split
  next es => exact absurd rfl (h es)
  next => rfl

/-- One turn and then `n` more are `n + 1` turns. -/
theorem afterTurns_afterTurns_one (n : Nat) (evs : List Event) :
    afterTurns n (afterTurns 1 evs) = afterTurns (n + 1) evs := by
  by_cases h : ∃ es, evs = .seqStep :: es
  · obtain ⟨es, rfl⟩ := h
    rfl
  · have none : ∀ es, evs ≠ .seqStep :: es := fun es he => h ⟨es, he⟩
    simp only [afterTurns_of_no_turn none]

/-- The sequencer's turn is one of the schedule, and changes nothing else. -/
theorem takeTurn_eq (s : State) : takeTurn s = { s with events := afterTurns 1 s.events } := by
  rcases takeTurn_events_cases s with ⟨es, he, -⟩ | ⟨hn, ht⟩
  · simp [takeTurn, he, afterTurns]
  · rw [ht, afterTurns_of_no_turn hn]

theorem takeTurn_of_no_turn {s : State} (h : ∀ es, s.events ≠ .seqStep :: es) : takeTurn s = s := by
  rw [takeTurn_eq, afterTurns_of_no_turn h]

/-- No micro-operation reads the schedule. -/
theorem afterMicro_withEvents (s : State) (es : List Event) :
    afterMicro { s with events := es } = { afterMicro s with events := es } := by
  simp only [afterMicro, afterXpnd, afterRnd]
  repeat' split
  all_goals rfl

/-- Settles O20: the sequencer's turn leaves a command at the head of the schedule, and the micro-operation does not see
it. -/
theorem heldCommandWaits : Obligations.HeldCommandWaits := by
  intro s c d es hl hb he
  have no_turn : takeTurn s = s := takeTurn_of_no_turn (by simp [he])
  refine ⟨afterMicro s, ?step, afterMicro_events s, afterMicro_responses s, ?unseen⟩
  case step => rw [step_busy hl hb (by simp [he]), no_turn]
  case unseen =>
    rw [step_busy (s := { s with events := [] }) hl hb (by simp), takeTurn_of_no_turn (by simp), afterMicro_withEvents]

end Sys2Proof.Machine

/-! ## The rows of the transition table (R171, R172) -/

namespace Sys2Proof.Machine

/-- The rows of R171 for a busy core. -/
theorem nextPosition_cases {p q : Phase} {n m : BitVec 6} (h : nextPosition p n = some (q, m)) :
    (p = .expand ∧ 16#6 ≤ n ∧ n < 63#6 ∧ q = .expand ∧ m = n + 1#6) ∨ (p = .expand ∧ n = 63#6 ∧ q = .loadv ∧ m = 0#6) ∨
      (p = .loadv ∧ n = 0#6 ∧ q = .round ∧ m = 0#6) ∨ (p = .round ∧ n < 63#6 ∧ q = .round ∧ m = n + 1#6) ∨
      (p = .round ∧ n = 63#6 ∧ q = .fold ∧ m = 0#6) ∨ (p = .fold ∧ n = 0#6 ∧ q = .idle ∧ m = 0#6) := by
  have below {n : BitVec 6} (h : ¬n = 63#6) : n < 63#6 := by bv_omega
  unfold nextPosition at h
  repeat' split at h
  all_goals cases h
  next h16 h63 => subst h63; simp
  next h16 h63 => simp [below h63, BitVec.not_lt.mp h16]
  next h0 => simp [h0]
  next h63 => simp [h63]
  next h63 => simp [below h63]
  next h0 => simp [h0]

/-- Every row of R171 ends in a legal position. -/
theorem legalPosition_of_nextPosition {p : Phase} {n : BitVec 6} {u : State} (h : nextPosition p n = some (u.ph, u.t)) :
    LegalPosition u := by
  rcases nextPosition_cases h with ⟨-, h16, h63, hq, hm⟩ | ⟨-, -, hq, hm⟩ | ⟨-, -, hq, hm⟩ | ⟨-, -, hq, hm⟩ |
    ⟨-, -, hq, hm⟩ | ⟨-, -, hq, hm⟩
  case inl =>
    have : 16#6 ≤ n + 1#6 := by bv_omega
    simp [LegalPosition, hq, hm, this]
  all_goals simp [LegalPosition, hq, hm]

/-- Every row of R171 brings the core one step nearer to the idle phase (R172). -/
theorem stepsLeft_of_nextPosition {p q : Phase} {n m : BitVec 6} (h : nextPosition p n = some (q, m)) :
    stepsLeft q m + 1 = stepsLeft p n := by
  have next {n : BitVec 6} (h : n < 63#6) : (n + 1#6).toNat = n.toNat + 1 ∧ n.toNat < 63 := by bv_omega
  rcases nextPosition_cases h with ⟨rfl, -, h63, rfl, rfl⟩ | ⟨rfl, rfl, rfl, rfl⟩ | ⟨rfl, rfl, rfl, rfl⟩ |
    ⟨rfl, h63, rfl, rfl⟩ | ⟨rfl, rfl, rfl, rfl⟩ | ⟨rfl, rfl, rfl, rfl⟩
  case inl | inr.inr.inr.inl =>
    obtain ⟨hnext, hlt⟩ := next h63
    simp only [stepsLeft, hnext]
    omega
  all_goals rfl

theorem stepsLeft_eq_zero_iff (p : Phase) (n : BitVec 6) : stepsLeft p n = 0 ↔ p = .idle := by
  cases p <;> simp [stepsLeft]

/-- A core with steps left is busy. -/
theorem busy_of_stepsLeft_pos {p : Phase} {n : BitVec 6} (h : 0 < stepsLeft p n) : p ≠ .idle :=
  fun hp => Nat.ne_of_gt h ((stepsLeft_eq_zero_iff p n).mpr hp)

/-- Settles O29: 114 steps from the entry, and each row of the table leaves one fewer. -/
theorem blockTerminates : Obligations.BlockTerminates := by
  refine ⟨rfl, stepsLeft_eq_zero_iff, fun s hl hb hr => ?_⟩
  have hs := step_busy hl hb hr
  have moved := step_position_busy hs hr hb
  exact ⟨_, hs, legalPosition_of_nextPosition moved, stepsLeft_of_nextPosition moved⟩

end Sys2Proof.Machine

/-! ## Which event a step is (R10, R170) -/

namespace Sys2Proof.Machine

/-- Whatever a command accepted by the idle core does, it is answered once, and these are left alone (R26). -/
theorem runCommand_frame {s t : State} {c : BitVec 8} {d : Word} (hp : s.ph = .idle) (h : runCommand c d s = .next t) :
    t.v = s.v ∧ SameSchedule s t ∧ ∃ r, t.responses = r :: s.responses := by
  obtain ⟨r, x, hx, -⟩ := runCommand_answersAndRecords hp h
  have answered : ∃ r, t.responses = r :: s.responses := ⟨_, hx⟩
  rcases runCommand_writes hp h with ⟨-, rfl⟩ | ⟨n, -, rfl⟩ | ⟨-, rfl⟩ | ⟨-, hv, -, -, -, -, -, he, hd⟩
  · exact ⟨rfl, ⟨rfl, rfl⟩, answered⟩
  · exact ⟨rfl, ⟨rfl, rfl⟩, answered⟩
  · exact ⟨rfl, ⟨rfl, rfl⟩, answered⟩
  · exact ⟨hv.symm, ⟨he.symm, hd.symm⟩, answered⟩

/-- Settles O23: the four kinds of step, each with what it does to the schedule, the answers and the position. -/
theorem everyStepIsOneEvent : Obligations.EveryStepIsOneEvent := by
  intro s t h
  rcases step_next_cases h with ⟨es, he, rfl⟩ | ⟨hr, hb, -, rfl⟩ | ⟨hp, -, c, d, es, he, hc⟩ | ⟨hp, -, he, rfl⟩
  · exact .inl ⟨es, he, rfl, rfl, rfl⟩
  · refine .inr (.inr (.inl ⟨hb, hr, by rw [afterMicro_events, takeTurn_eq], by simp, fun same => ?_⟩))
    have nearer := stepsLeft_of_nextPosition (step_position_busy h hr hb)
    obtain ⟨hph, ht⟩ := Prod.mk.inj same
    rw [hph, ht] at nearer
    omega
  · obtain ⟨hv, ⟨hes, -⟩, r, hrs⟩ := runCommand_frame (s := { s with events := es }) hp hc
    exact .inr (.inl ⟨hp, c, d, es, r, he, hes, hrs, hv⟩)
  · refine .inr (.inr (.inr ⟨hp, ?_, ?_, takeTurn_eq s⟩))
    · rcases he with he | ⟨es, he⟩ <;> simp [he]
    · rcases he with he | ⟨es, he⟩ <;> simp [he]

/-- The step at a position that names a micro-operation runs it, unless a `Reset` is scheduled. -/
theorem step_micro {s : State} {i : Instr} (hr : ∀ es, s.events ≠ .reset :: es) (hd : decode (.seq (seqWord s)) = .ok i) :
    step s = exec i (takeTurn s) := by
  unfold step advance
  split
  next es he => exact absurd he (hr es)
  next => rw [hd]

/-- Settles O21: the step decodes at the place the phase says, and runs what it finds there. -/
theorem stepRunsDecodedInstruction : Obligations.StepRunsDecodedInstruction := by
  refine ⟨fun s c d es i hp ht he hd => (step_command hp ht he).trans (runCommand_ok hd), fun s i => step_micro,
    fun s es he => ?turn, fun s => takeTurn_of_no_turn⟩
  case turn => rw [takeTurn_eq, he]; rfl

/-- The first of a run's steps. -/
theorem run_succ {s u : State} (h : step s = .next u) (k : Nat) :
    Host.Core.run core (k + 1) s = Host.Core.run core k u := by
  have hs : core.step s = .next u := h
  simp only [Host.Core.run, hs]

/-- Settles O22: with nothing scheduled the idle core is where it was after each step, and a turn is all it uses up. -/
theorem idleSequencerDoesNothing : Obligations.IdleSequencerDoesNothing := by
  refine fun s hp ht => ⟨fun he n => ?rests, fun es he => ?turn⟩
  case rests =>
    have same : step s = .next s :=
      (step_idle_turn hp ht (.inl he)).trans (congrArg _ (takeTurn_of_no_turn (by simp [he])))
    induction n with
    | zero => rfl
    | succ n ih => rw [run_succ same, ih]
  case turn =>
    rw [step_idle_turn hp ht (.inr ⟨es, he⟩), takeTurn_eq, he]
    rfl

/-- Settles O49: a `Reset` always happens, the idle core takes any command or lets the turn pass, and the busy core runs its
micro-operation. -/
theorem legalStepsAlwaysComplete : Obligations.LegalStepsAlwaysComplete := by
  intro s hl
  by_cases hr : ∃ es, s.events = .reset :: es
  · obtain ⟨es, he⟩ := hr
    exact ⟨_, step_reset he⟩
  have hr' : ∀ es, s.events ≠ .reset :: es := fun es he => hr ⟨es, he⟩
  by_cases hp : s.ph = .idle
  · obtain ⟨ht, -⟩ := hl
    match he : s.events with
    | [] => exact ⟨_, step_idle_turn hp (ht hp) (.inl he)⟩
    | .seqStep :: es => exact ⟨_, step_idle_turn hp (ht hp) (.inr ⟨es, he⟩)⟩
    | .reset :: es => exact absurd he (hr' es)
    | .cmd c d :: es =>
      obtain ⟨t, h⟩ := runCommand_completes (s := { s with events := es }) hp c d
      exact ⟨t, (step_command hp (ht hp) he).trans h⟩
  · exact ⟨_, step_busy hl hp hr'⟩

end Sys2Proof.Machine

/-! # The invariants of `10_state.md` section 8 (R39) -/

namespace Sys2Proof.Machine

/-- At `(IDLE, 0)` the invariants ask for nothing more. -/
theorem invariants_of_idle {s : State} (hp : s.ph = .idle) (ht : s.t = 0#6) : Invariants s :=
  ⟨by simp [LegalPosition, hp, ht], fun hb => absurd hp hb⟩

/-- A micro-operation that leaves the core busy leaves the running block's conditions. -/
theorem blockReady_of_micro {s t : State} (h : step s = .next t) (hr : ∀ es, s.events ≠ .reset :: es) (hb : s.ph ≠ .idle)
    (hs : BlockReady s) : BlockReady t := by
  intro hbusy
  have hfold : s.ph ≠ .fold := fun hp =>
    have ⟨_, _, hidle⟩ := step_fold h hr hp
    hbusy hidle
  rw [afterMicro_of_step hb hr h, afterMicro_INITD, takeTurn_INITD, afterMicro_WV (by simpa using hfold), takeTurn_WV]
  exact hs hb

/-- Settles O45: `Reset` and the idle core's steps other than an accepted `START` leave `(IDLE, 0)`; that `START` enters the
sequencer with its preconditions met; and a micro-operation moves by the table of R171 and keeps the block's conditions. -/
theorem everyStepKeepsTheInvariants : Obligations.EveryStepKeepsTheInvariants := by
  rintro s t ⟨hl, hready⟩ h
  obtain ⟨hidle, -⟩ := id hl
  by_cases hr : ∃ es, s.events = .reset :: es
  · obtain ⟨es, he⟩ := hr
    rw [step_reset he] at h
    cases h
    exact invariants_of_idle rfl rfl
  have hr' : ∀ es, s.events ≠ .reset :: es := fun es he => hr ⟨es, he⟩
  by_cases hp : s.ph = .idle
  · by_cases ha : StartAccepted s
    · obtain ⟨hi, hw, d, es, he⟩ := ha
      rw [step_start hp (hidle hp) hi hw he] at h
      cases h
      exact ⟨by simp [LegalPosition], fun _ => ⟨hi, hw⟩⟩
    · obtain ⟨hph, ht⟩ := step_position_of_not_startAccepted h hr' hp ha
      exact invariants_of_idle hph (ht.trans (hidle hp))
  · exact ⟨legalPosition_of_nextPosition (step_position_busy h hr' hp), blockReady_of_micro h hr' hp hready⟩

/-- Settles O46: the reset state is idle at index 0. -/
theorem resetMeetsTheInvariants : Obligations.ResetMeetsTheInvariants := invariants_of_idle rfl rfl

end Sys2Proof.Machine

/-! # Reset (`70_reset_and_hazards.md` section 1, `10_state.md` section 9) -/

namespace Sys2Proof.Machine

/-- Settles O36: each field of the reset state that has a value. -/
theorem resetStateValues : Obligations.ResetStateValues := ⟨rfl, rfl, rfl, rfl, rfl, rfl, rfl, rfl, rfl⟩

theorem status_resetCore (s : State) : status (resetCore s) = 0#32 := by
  simp [status]

/-- No step but `Reset` draws a free word. -/
theorem step_draws {s t : State} (h : step s = .next t) (hr : ∀ es, s.events ≠ .reset :: es) : t.draws = s.draws := by
  rcases step_next_cases h with ⟨es, he, -⟩ | ⟨-, -, -, rfl⟩ | ⟨hp, -, c, d, es, -, hc⟩ | ⟨-, -, -, rfl⟩
  · exact absurd he (hr es)
  · simp
  · obtain ⟨-, ⟨-, hd⟩, -⟩ := runCommand_frame (s := { s with events := es }) hp hc
    exact hd
  · simp

/-- Settles O35: `Reset` puts any core into the reset state, which the state before has no part in; no other step clears
`INITD` or an error flag. -/
theorem resetFromAnyState : Obligations.ResetFromAnyState := by
  refine ⟨fun s es he => ⟨_, step_reset he, rfl, rfl, rfl, rfl, rfl, rfl, rfl, rfl, status_resetCore _, rfl, rfl⟩,
    fun s s' es he he' hresp hd => ?forgets,
    fun s t h hr => ⟨fun hi => ?initd, errorFlag_kept (e := .illegal) h hr, errorFlag_kept (e := .notInit) h hr,
      errorFlag_kept (e := .incomplete) h hr, step_draws h hr⟩⟩
  case forgets => rw [step_reset he, step_reset (he'.trans he), resetCore, resetCore, hresp, hd]
  case initd =>
    by_contra hn
    obtain ⟨hi', -⟩ := step_INITD_changed h hr (fun same => hn (same.trans hi))
    exact hn hi'

/-- Settles O37: `Reset` leaves the held command at the head of the schedule of an idle core, which accepts it. -/
theorem heldCommandSurvivesReset : Obligations.HeldCommandSurvivesReset := by
  intro s c d es _ he
  have hs := step_reset he
  obtain ⟨u, hu⟩ := runCommand_completes (s := { resetCore { s with events := .cmd c d :: es } with events := es }) rfl c d
  obtain ⟨-, ⟨hes, -⟩, r, hr⟩ := runCommand_frame rfl hu
  exact ⟨_, u, r, hs, rfl, rfl, rfl, rfl, rfl, (step_command rfl rfl rfl).trans hu, hes, hr⟩

end Sys2Proof.Machine

/-! # Who writes what (`10_state.md` section 2, R26) -/

namespace Sys2Proof.Machine

/-- From `s` to `t` the instruction `i` has written nothing but what R26's table lets it write. -/
structure MayWrite (i : Instr) (s t : State) : Prop where
  H : t.H ≠ s.H → i = .init ∨ i = .fold
  v : t.v ≠ s.v → i = .loadv ∨ ∃ n, i = .rnd n
  W : ∀ j, readW j t ≠ readW j s → (j < 16#6 ∧ ∃ n x, i = .ldw n x ∧ j = blockIndex n) ∨ (16#6 ≤ j ∧ i = .xpnd j)
  position : (t.ph ≠ s.ph ∨ t.t ≠ s.t) →
    i = .start ∨ (∃ n, i = .xpnd n) ∨ i = .loadv ∨ (∃ n, i = .rnd n) ∨ i = .fold
  INITD : t.INITD ≠ s.INITD → i = .init
  WV : t.WV ≠ s.WV → (∃ n x, i = .ldw n x) ∨ i = .fold
  EILL : t.EILL = s.EILL
  ENIN : t.ENIN ≠ s.ENIN → i = .start ∨ ∃ n, i = .rdh n
  EINC : t.EINC ≠ s.EINC → i = .start
  schedule : SameSchedule s t

namespace MayWrite

variable {i : Instr} {s u : State}

theorem refl (i : Instr) (s : State) : MayWrite i s s where
  H h := absurd rfl h
  v h := absurd rfl h
  W _ h := absurd rfl h
  position h := h.elim (absurd rfl) (absurd rfl)
  INITD h := absurd rfl h
  WV h := absurd rfl h
  EILL := rfl
  ENIN h := absurd rfl h
  EINC h := absurd rfl h
  schedule := ⟨rfl, rfl⟩

/-! Each update of the state, with the instructions that may make it. -/

theorem respond (h : MayWrite i s u) (r : Resp) (x : Word) : MayWrite i s (respond r x u) := { h with }

theorem writeH (h : MayWrite i s u) (x : Vector Word 8) (hi : i = .init ∨ i = .fold) : MayWrite i s (writeH x u) :=
  { h with H := fun _ => hi }

theorem writeV (h : MayWrite i s u) (x : Vector Word 8) (hi : i = .loadv ∨ ∃ n, i = .rnd n) : MayWrite i s (writeV x u) :=
  { h with v := fun _ => hi }

theorem writeW (h : MayWrite i s u) (k : BitVec 6) (x : Word)
    (hi : (k < 16#6 ∧ ∃ n x, i = .ldw n x ∧ k = blockIndex n) ∨ (16#6 ≤ k ∧ i = .xpnd k)) :
    MayWrite i s (writeW k x u) := by
  refine { h with W := fun j hj => ?_ }
  by_cases hk : j = k
  · rwa [hk]
  · rw [readW_writeW_other x u hk] at hj
    exact h.W j hj

theorem moveTo (h : MayWrite i s u) (p : Phase) (n : BitVec 6)
    (hi : i = .start ∨ (∃ n, i = .xpnd n) ∨ i = .loadv ∨ (∃ n, i = .rnd n) ∨ i = .fold) : MayWrite i s (moveTo p n u) :=
  { h with position := fun _ => hi }

theorem setInitd (h : MayWrite i s u) (hi : i = .init) : MayWrite i s (setInitd u) := { h with INITD := fun _ => hi }

theorem setLoaded (h : MayWrite i s u) (n : BitVec 4) (hi : ∃ n x, i = .ldw n x) : MayWrite i s (setLoaded n u) :=
  { h with WV := fun _ => .inl hi }

theorem clearLoaded (h : MayWrite i s u) (hi : i = .fold) : MayWrite i s (clearLoaded u) := { h with WV := fun _ => .inr hi }

theorem raise_notInit (h : MayWrite i s u) (hi : i = .start ∨ ∃ n, i = .rdh n) : MayWrite i s (raise .notInit u) :=
  { h with ENIN := fun _ => hi }

theorem raise_incomplete (h : MayWrite i s u) (hi : i = .start) : MayWrite i s (raise .incomplete u) :=
  { h with EINC := fun _ => hi }

/-- A command writes what its rule writes where it is accepted, and nothing where it is held. -/
theorem of_accept {t : State} (ht : accept s u = .next t) (h : MayWrite i s u) : MayWrite i s t := by
  rcases accept_cases ht with ⟨-, rfl⟩ | ⟨-, rfl⟩
  · exact h
  · exact refl i _

/-- What an instruction's rule writes, update by update, the table lets it write. -/
theorem of_exec {t : State} (h : exec i s = .next t) : MayWrite i s t := by
  have nothing := refl i s
  cases i with
  | nop => exact of_accept h (nothing.respond _ _)
  | init => exact of_accept h (((nothing.writeH _ (.inl rfl)).setInitd rfl).respond _ _)
  | ldw n x =>
    exact of_accept h (((nothing.writeW _ x (.inl ⟨blockIndex_lt n, n, x, rfl, rfl⟩)).setLoaded n ⟨n, x, rfl⟩).respond _ _)
  | start =>
    refine of_accept h ?_
    split
    next => exact nothing.raise_notInit (.inl rfl)
    split
    next => exact nothing.raise_incomplete rfl
    next => exact (nothing.moveTo _ _ (.inl rfl)).respond _ _
  | rdh n =>
    refine of_accept h ?_
    split
    next => exact nothing.raise_notInit (.inr ⟨n, rfl⟩)
    next => exact nothing.respond _ _
  | rds => exact of_accept h (nothing.respond _ _)
  | xpnd t =>
    obtain ⟨h16, h⟩ : 16#6 ≤ t ∧ _ := by simpa [exec, execXpnd, ite_eq_iff] using h
    obtain ⟨-, -, rfl⟩ := atPosition_next h
    obtain ⟨p, n, hu, -⟩ := afterXpnd_eq_moveTo t (Machine.writeW t (scheduleWord s.W t) s)
    rw [hu]
    exact (nothing.writeW t _ (.inr ⟨h16, rfl⟩)).moveTo p n (.inr (.inl ⟨t, rfl⟩))
  | loadv =>
    obtain ⟨-, -, rfl⟩ := atPosition_next h
    exact (nothing.writeV _ (.inl rfl)).moveTo _ _ (.inr (.inr (.inl rfl)))
  | rnd t =>
    obtain ⟨-, -, rfl⟩ := atPosition_next h
    obtain ⟨p, n, hu, -⟩ := afterRnd_eq_moveTo t (Machine.writeV (mix s.v (K t) (readW t s)) s)
    rw [hu]
    exact (nothing.writeV _ (.inr ⟨t, rfl⟩)).moveTo p n (.inr (.inr (.inr (.inl ⟨t, rfl⟩))))
  | fold =>
    obtain ⟨-, -, rfl⟩ := atPosition_next h
    exact ((nothing.writeH _ (.inr rfl)).clearLoaded rfl).moveTo _ _ (.inr (.inr (.inr (.inr rfl))))

end MayWrite

/-- Settles O44: every instruction that completes writes only what R26's table lets it write. -/
theorem whoWritesWhat : Obligations.WhoWritesWhat := fun _ _ _ h =>
  have ⟨hH, hv, hW, hpos, hinitd, hwv, hill, hnin, hinc, hsched⟩ := MayWrite.of_exec h
  ⟨hH, hv, hW, hpos, hinitd, hwv, hill, hnin, hinc, hsched⟩

end Sys2Proof.Machine

/-! # No data-dependent control (`00_scope.md` section 8, R16) -/

/-! ## Schedules that differ in data words -/

namespace Sys2Proof.Machine

theorem eraseData_eq_reset (e : Event) : e.eraseData = .reset ↔ e = .reset := by
  cases e <;> simp [Event.eraseData]

theorem eraseData_eq_seqStep (e : Event) : e.eraseData = .seqStep ↔ e = .seqStep := by
  cases e <;> simp [Event.eraseData]

theorem eraseData_eq_cmd (e : Event) (c : BitVec 8) : e.eraseData = .cmd c 0#32 ↔ ∃ d, e = .cmd c d := by
  cases e <;> simp [Event.eraseData]

/-- A turn is one of both schedules or of neither. -/
theorem afterTurns_one_map_eraseData (evs : List Event) :
    (afterTurns 1 evs).map Event.eraseData = afterTurns 1 (evs.map Event.eraseData) := by
  match evs with
  | [] => rfl
  | .reset :: es => rfl
  | .cmd c d :: es => rfl
  | .seqStep :: es => rfl

/-- The head of the other schedule is the same event, its data word aside. -/
theorem exists_head_of_sameControl {s s' : State} {e : Event} {es : List Event} (h : SameControl s s')
    (he : s.events = e :: es) : ∃ e' es', s'.events = e' :: es' ∧ e'.eraseData = e.eraseData ∧
      SameControl { s with events := es } { s' with events := es' } := by
  obtain ⟨hp, ht, hi, hw, hill, hnin, hinc, hev⟩ := h
  rw [he, List.map_cons, eq_comm, List.map_eq_cons_iff] at hev
  obtain ⟨e', es', he', hee, hes⟩ := hev
  exact ⟨e', es', he', hee, hp, ht, hi, hw, hill, hnin, hinc, hes.symm⟩

theorem sameControl_symm {s s' : State} (h : SameControl s s') : SameControl s' s := by
  obtain ⟨hp, ht, hi, hw, hill, hnin, hinc, hev⟩ := h
  exact ⟨hp.symm, ht.symm, hi.symm, hw.symm, hill.symm, hnin.symm, hinc.symm, hev.symm⟩

theorem no_reset_of_sameControl {s s' : State} (h : SameControl s s') (hr : ∀ es, s.events ≠ .reset :: es)
    (es : List Event) : s'.events ≠ .reset :: es := by
  intro he
  obtain ⟨e, es', he', hee, -⟩ := exists_head_of_sameControl (sameControl_symm h) he
  obtain rfl := (eraseData_eq_reset e).mp hee
  exact hr es' he'

end Sys2Proof.Machine

/-! ## Steps from states with the same control -/

namespace Sys2Proof.Machine

section sameControl

variable {s s' : State}

theorem sameControl_respond (h : SameControl s s') (r r' : Resp) (x x' : Word) :
    SameControl (respond r x s) (respond r' x' s') := h

theorem sameControl_writeH (h : SameControl s s') (x x' : Vector Word 8) : SameControl (writeH x s) (writeH x' s') := h

theorem sameControl_writeW (h : SameControl s s') (j : BitVec 6) (x x' : Word) :
    SameControl (writeW j x s) (writeW j x' s') := h

theorem sameControl_raise (h : SameControl s s') (c : Cause) : SameControl (raise c s) (raise c s') := by
  obtain ⟨hp, ht, hi, hw, hill, hnin, hinc, hev⟩ := h
  simp [SameControl, hp, ht, hi, hw, hill, hnin, hinc, hev]

theorem sameControl_moveTo (h : SameControl s s') (p : Phase) (n : BitVec 6) :
    SameControl (moveTo p n s) (moveTo p n s') := by
  obtain ⟨-, -, h⟩ := h
  exact ⟨rfl, rfl, h⟩

theorem sameControl_setInitd (h : SameControl s s') : SameControl (setInitd s) (setInitd s') := by
  obtain ⟨hp, ht, -, h⟩ := h
  exact ⟨hp, ht, rfl, h⟩

theorem sameControl_setLoaded (h : SameControl s s') (n : BitVec 4) : SameControl (setLoaded n s) (setLoaded n s') := by
  obtain ⟨hp, ht, hi, hw, h⟩ := h
  exact ⟨hp, ht, hi, congrArg (· ||| _) hw, h⟩

theorem sameControl_takeTurn (h : SameControl s s') : SameControl (takeTurn s) (takeTurn s') := by
  obtain ⟨hp, ht, hi, hw, hill, hnin, hinc, hev⟩ := h
  rw [takeTurn_eq, takeTurn_eq]
  refine ⟨hp, ht, hi, hw, hill, hnin, hinc, ?_⟩
  rw [afterTurns_one_map_eraseData, afterTurns_one_map_eraseData, hev]

theorem legalPosition_of_sameControl (h : SameControl s s') (hl : LegalPosition s) : LegalPosition s' := by
  obtain ⟨hp, ht, -⟩ := h
  rwa [LegalPosition, ← hp, ← ht]

/-- A micro-operation moves by the position alone, and clears `WV` at `FOLD` or leaves it. -/
theorem sameControl_afterMicro (h : SameControl s s') (hl : LegalPosition s) (hb : s.ph ≠ .idle) :
    SameControl (afterMicro s) (afterMicro s') := by
  have moved := afterMicro_position hl hb
  have hl' := legalPosition_of_sameControl h hl
  obtain ⟨hp, ht, hi, hw, hill, hnin, hinc, hev⟩ := h
  rw [hp, ht, afterMicro_position hl' (hp ▸ hb), Option.some_inj, Prod.mk.injEq] at moved
  have hwv : (afterMicro s).WV = (afterMicro s').WV := by
    by_cases hf : s.ph = .fold
    · rw [afterMicro_fold hf, afterMicro_fold (hp ▸ hf)]
      rfl
    · rw [afterMicro_WV hf, afterMicro_WV (hp ▸ hf), hw]
  obtain ⟨hp', ht'⟩ := moved
  refine ⟨hp'.symm, ht'.symm, ?_, hwv, ?_⟩
  · simp [hi]
  · simp [hill, hnin, hinc, hev]

/-- The idle core treats a command word alike whatever the data are. -/
theorem runCommand_sameControl {t : State} {c : BitVec 8} {d : Word} (d' : Word) (h : SameControl s s')
    (hp : s.ph = .idle) (hc : runCommand c d s = .next t) : ∃ t', runCommand c d' s' = .next t' ∧ SameControl t t' := by
  obtain ⟨hph, -, hinitd, hwv, -⟩ := id h
  have hp' := hph ▸ hp
  rcases runCommand_next_cases hp hc with ⟨rfl, -, rfl⟩ | ⟨rfl, -, rfl⟩ | ⟨n, rfl, -, rfl⟩ |
    ⟨rfl, -, ⟨hi, rfl⟩ | ⟨hi, hw, rfl⟩ | ⟨hi, hw, rfl⟩⟩ | ⟨n, rfl, -, ⟨hi, rfl⟩ | ⟨hi, rfl⟩⟩ | ⟨rfl, -, rfl⟩ | ⟨hd, rfl⟩
  · exact ⟨_, (runCommand_ok rfl).trans (exec_nop_idle hp'), sameControl_respond h ..⟩
  · exact ⟨_, (runCommand_ok rfl).trans (exec_init_idle hp'),
      sameControl_respond (sameControl_setInitd (sameControl_writeH h ..)) ..⟩
  · rw [← ldw_word]
    exact ⟨_, (runCommand_ok (decode_ldw n d')).trans (exec_ldw_idle hp' n d'),
      sameControl_respond (sameControl_setLoaded (sameControl_writeW h ..) n) ..⟩
  · exact ⟨_, (runCommand_ok rfl).trans (exec_start_notInit hp' (hinitd ▸ hi)), sameControl_raise h _⟩
  · exact ⟨_, (runCommand_ok rfl).trans (exec_start_incomplete hp' (hinitd ▸ hi) (hwv ▸ hw)), sameControl_raise h _⟩
  · exact ⟨_, (runCommand_ok rfl).trans (exec_start_ok hp' (hinitd ▸ hi) (hwv ▸ hw)),
      sameControl_respond (sameControl_moveTo h ..) ..⟩
  · rw [← rdh_word]
    exact ⟨_, (runCommand_ok (decode_rdh n d')).trans (exec_rdh_notInit hp' (hinitd ▸ hi) n), sameControl_raise h _⟩
  · rw [← rdh_word]
    exact ⟨_, (runCommand_ok (decode_rdh n d')).trans (exec_rdh_ok hp' (hinitd ▸ hi) n), sameControl_respond h ..⟩
  · exact ⟨_, (runCommand_ok rfl).trans (exec_rds_idle hp'), sameControl_respond h ..⟩
  · rw [decode_illegal_iff_zero_data, ← decode_illegal_iff_zero_data c d'] at hd
    exact ⟨_, runCommand_illegal hd, sameControl_raise h _⟩

end sameControl

/-- Settles O48: each kind of step does to position, flags and schedule what these alone say. -/
theorem controlIgnoresData : Obligations.ControlIgnoresData := by
  intro s s' t h hs
  obtain ⟨hph, ht', -⟩ := id h
  rcases step_next_cases hs with ⟨es, he, rfl⟩ | ⟨hr, hb, hl, rfl⟩ | ⟨hp, ht, c, d, es, he, hc⟩ | ⟨hp, ht, he, rfl⟩
  · obtain ⟨e', es', he', hee, -, -, -, -, -, -, -, hes⟩ := exists_head_of_sameControl h he
    obtain rfl := (eraseData_eq_reset e').mp hee
    exact ⟨_, step_reset he', rfl, rfl, rfl, rfl, rfl, rfl, rfl, hes⟩
  · exact ⟨_, step_busy (legalPosition_of_sameControl h hl) (hph ▸ hb) (no_reset_of_sameControl h hr),
      sameControl_afterMicro (sameControl_takeTurn h) (legalPosition_takeTurn.mpr hl) (by simpa using hb)⟩
  · obtain ⟨e', es', he', hee, hes⟩ := exists_head_of_sameControl h he
    obtain ⟨d', rfl⟩ := (eraseData_eq_cmd e' c).mp hee
    obtain ⟨t', ht'', htt⟩ := runCommand_sameControl d' hes hp hc
    exact ⟨t', (step_command (hph ▸ hp) (ht' ▸ ht) he').trans ht'', htt⟩
  · refine ⟨_, step_idle_turn (hph ▸ hp) (ht' ▸ ht) ?_, sameControl_takeTurn h⟩
    rcases he with he | ⟨es, he⟩
    · obtain ⟨-, -, -, -, -, -, -, hev⟩ := h
      exact .inl (by simpa [he, eq_comm] using hev)
    · obtain ⟨e', es', he', hee, -⟩ := exists_head_of_sameControl h he
      obtain rfl := (eraseData_eq_seqStep e').mp hee
      exact .inr ⟨es', he'⟩

end Sys2Proof.Machine

/-! # `undef` words are never observed (`10_state.md` section 8, R38, R39) -/

/-! ## What a micro-operation makes of the data registers -/

namespace Sys2Proof.Machine

@[simp] theorem afterXpnd_H (n : BitVec 6) (s : State) : (afterXpnd n s).H = s.H := by unfold afterXpnd; split <;> rfl
@[simp] theorem afterXpnd_v (n : BitVec 6) (s : State) : (afterXpnd n s).v = s.v := by unfold afterXpnd; split <;> rfl
@[simp] theorem afterXpnd_W (n : BitVec 6) (s : State) : (afterXpnd n s).W = s.W := by unfold afterXpnd; split <;> rfl
@[simp] theorem afterRnd_H (n : BitVec 6) (s : State) : (afterRnd n s).H = s.H := by unfold afterRnd; split <;> rfl
@[simp] theorem afterRnd_v (n : BitVec 6) (s : State) : (afterRnd n s).v = s.v := by unfold afterRnd; split <;> rfl
@[simp] theorem afterRnd_W (n : BitVec 6) (s : State) : (afterRnd n s).W = s.W := by unfold afterRnd; split <;> rfl

/-- The micro-operation of the position `EXPAND` (R122). -/
theorem afterMicro_expand {s : State} (hp : s.ph = .expand) :
    afterMicro s = afterXpnd s.t (writeW s.t (scheduleWord s.W s.t) s) := by
  simp [afterMicro, hp]

/-- The micro-operation of the position `LOADV` (R130). -/
theorem afterMicro_loadv {s : State} (hp : s.ph = .loadv) : afterMicro s = moveTo .round 0#6 (writeV s.H s) := by
  simp [afterMicro, hp]

/-- The micro-operation of the position `ROUND` (R132). -/
theorem afterMicro_round {s : State} (hp : s.ph = .round) :
    afterMicro s = afterRnd s.t (writeV (mix s.v (K s.t) (readW s.t s)) s) := by
  simp [afterMicro, hp]

/-- After `XPND t` the words up to `t` have a value, and no others. -/
theorem le_of_wDefined_afterMicro {s : State} (hp : s.ph = .expand) (h16 : 16#6 ≤ s.t) {j : BitVec 6}
    (hj : WDefined (afterMicro s) j) : j ≤ s.t := by
  rw [afterMicro_expand hp] at hj
  rcases afterXpnd_cases s.t (writeW s.t (scheduleWord s.W s.t) s) with ⟨h63, hu⟩ | ⟨h63, -⟩
  · rw [hu] at hj
    rcases hj with ⟨h, -⟩ | ⟨-, h⟩ | h | h | h
    · exact BitVec.le_trans (BitVec.le_of_lt h) h16
    · rw [moveTo_t] at h
      bv_omega
    all_goals cases h
  · bv_omega

end Sys2Proof.Machine

/-! ## Steps from states that agree on everything that has a value -/

namespace Sys2Proof.Machine

section agreeOnDefined

variable {s s' : State}

theorem agree_respond (h : AgreeOnDefined s s') (r : Resp) (x : Word) :
    AgreeOnDefined (respond r x s) (respond r x s') := by
  obtain ⟨hc, he, hr, hdata⟩ := h
  exact ⟨hc, he, congrArg (List.cons _) hr, hdata⟩

theorem agree_raise (h : AgreeOnDefined s s') (c : Cause) : AgreeOnDefined (raise c s) (raise c s') := by
  obtain ⟨hc, he, hr, hdata⟩ := h
  have hc' := sameControl_raise hc c
  cases c <;> exact ⟨hc', he, congrArg (List.cons _) hr, hdata⟩

/-- `INIT` gives all of `H` a value. -/
theorem agree_init (h : AgreeOnDefined s s') (x : Vector Word 8) :
    AgreeOnDefined (setInitd (writeH x s)) (setInitd (writeH x s')) := by
  obtain ⟨hc, he, hr, -, hdata⟩ := h
  exact ⟨sameControl_setInitd (sameControl_writeH hc x x), he, hr, fun _ => rfl, hdata⟩

/-- `LDW` gives the word it writes a value, and no other. -/
theorem agree_ldw (h : AgreeOnDefined s s') (n : BitVec 4) (x : Word) :
    AgreeOnDefined (setLoaded n (writeW (blockIndex n) x s)) (setLoaded n (writeW (blockIndex n) x s')) := by
  obtain ⟨hc, he, hr, hH, hv, hW⟩ := h
  refine ⟨sameControl_setLoaded (sameControl_writeW hc _ x x) n, he, hr, hH, hv, fun j hj => ?_⟩
  rw [readW_congr (setLoaded_W ..), readW_congr (setLoaded_W ..)]
  by_cases hjn : j = blockIndex n
  · rw [hjn, readW_writeW_same, readW_writeW_same]
  · rw [readW_writeW_other x s hjn, readW_writeW_other x s' hjn]
    have other : j.toNat ≠ n.toNat := fun e => hjn (BitVec.eq_of_toNat_eq (e.trans (blockIndex_toNat n).symm))
    refine hW j (hj.imp_left (And.imp_right fun hbit => ?_))
    rwa [setLoaded_WV_getLsbD, decide_eq_false other, Bool.or_false] at hbit

/-- `START` finds every block word loaded, which is what has a value at `(EXPAND, 16)`. -/
theorem agree_start (h : AgreeOnDefined s s') (hw : s.WV = 0xFFFF#16) :
    AgreeOnDefined (moveTo .expand 16#6 s) (moveTo .expand 16#6 s') := by
  obtain ⟨hc, he, hr, hH, -, hW⟩ := h
  have full : ∀ k < 16, (0xFFFF#16).getLsbD k = true := by decide
  refine ⟨sameControl_moveTo hc _ _, he, hr, hH, by simp [VDefined], fun j hj => hW j ?_⟩
  have h16 : j < 16#6 := by
    rcases hj with ⟨h, -⟩ | ⟨-, h⟩ | h | h | h
    · exact h
    · exact h
    all_goals cases h
  exact .inl ⟨h16, by rw [hw]; exact full _ h16⟩

theorem agree_takeTurn (h : AgreeOnDefined s s') : AgreeOnDefined (takeTurn s) (takeTurn s') := by
  obtain ⟨hc, he, hdata⟩ := h
  have hc' := sameControl_takeTurn hc
  rw [takeTurn_eq, takeTurn_eq] at hc' ⊢
  exact ⟨hc', congrArg (afterTurns 1) he, hdata⟩

/-- A micro-operation reads and leaves only words that have a value: `XPND` reads below `t`, and the later phases have all of
`W`; `LOADV` and `FOLD` read `H`, which a running block has initialised. -/
theorem agree_afterMicro (hinv : Invariants s) (hb : s.ph ≠ .idle) (h : AgreeOnDefined s s') :
    AgreeOnDefined (afterMicro s) (afterMicro s') := by
  obtain ⟨hl, hready⟩ := hinv
  obtain ⟨hi, -⟩ := hready hb
  obtain ⟨hc, he, hr, hH, hv, hW⟩ := h
  have hH := hH hi
  refine ⟨sameControl_afterMicro hc hl hb, by simp [he], by simp [hr], ?_⟩
  obtain ⟨hph, ht, -⟩ := hc
  cases hp : s.ph with
  | idle => exact absurd hp hb
  | expand =>
    obtain ⟨-, -, -, hexpand⟩ := hl
    have h16 := hexpand hp
    have below {j : BitVec 6} (hj : j < s.t) : readW j s = readW j s' := hW j (.inr (.inl ⟨hp, hj⟩))
    have word : scheduleWord s.W s.t = scheduleWord s'.W s.t := by
      rw [scheduleWord_readW, scheduleWord_readW, below (by bv_omega), below (by bv_omega), below (by bv_omega),
        below (by bv_omega)]
    have hv' : ¬VDefined (afterMicro s) := by
      rw [afterMicro_expand hp]
      rcases afterXpnd_cases s.t (writeW s.t (scheduleWord s.W s.t) s) with ⟨-, hu⟩ | ⟨-, hu⟩ <;> simp [VDefined, hu]
    refine ⟨fun _ => ?_, fun hd => absurd hd hv', fun j hj => ?_⟩
    · rw [afterMicro_expand hp, afterMicro_expand (hph ▸ hp)]
      simpa using hH
    · have hle := le_of_wDefined_afterMicro hp h16 hj
      rw [afterMicro_expand hp, afterMicro_expand (hph ▸ hp), readW_congr (afterXpnd_W ..), readW_congr (afterXpnd_W ..),
        ← ht, ← word]
      by_cases hjt : j = s.t
      · rw [hjt, readW_writeW_same, readW_writeW_same]
      · rw [readW_writeW_other _ s hjt, readW_writeW_other _ s' hjt]
        exact below (by bv_omega)
  | loadv =>
    rw [afterMicro_loadv hp, afterMicro_loadv (hph ▸ hp)]
    exact ⟨fun _ => hH, fun _ => hH, fun j _ => hW j (by simp [WDefined, hp])⟩
  | round =>
    have hW (j : BitVec 6) : readW j s = readW j s' := hW j (by simp [WDefined, hp])
    rw [afterMicro_round hp, afterMicro_round (hph ▸ hp)]
    refine ⟨fun _ => ?_, fun _ => ?_, fun j _ => ?_⟩
    · simpa using hH
    · rw [afterRnd_v, afterRnd_v, writeV_v, writeV_v, hv (.inl hp), hW, ht]
    · simpa [readW] using hW j
  | fold =>
    rw [afterMicro_fold hp, afterMicro_fold (hph ▸ hp)]
    have hv := hv (.inr hp)
    exact ⟨fun _ => by simp [hH, hv], fun _ => hv, fun j _ => hW j (by simp [WDefined, hp])⟩

/-- The idle core's answer and effect depend on no word without a value: `RDH` reads `H` only once it is initialised. -/
theorem runCommand_agree {t : State} {c : BitVec 8} {d : Word} (h : AgreeOnDefined s s') (hp : s.ph = .idle)
    (hc : runCommand c d s = .next t) : ∃ t', runCommand c d s' = .next t' ∧ AgreeOnDefined t t' := by
  obtain ⟨⟨hph, ht, hinitd, hwv, hill, hnin, hinc, -⟩, -, -, hH, -⟩ := id h
  have hp' := hph ▸ hp
  rcases runCommand_next_cases hp hc with ⟨-, hd, rfl⟩ | ⟨-, hd, rfl⟩ | ⟨n, -, hd, rfl⟩ |
    ⟨-, hd, ⟨hi, rfl⟩ | ⟨hi, hw, rfl⟩ | ⟨hi, hw, rfl⟩⟩ | ⟨n, -, hd, ⟨hi, rfl⟩ | ⟨hi, rfl⟩⟩ | ⟨-, hd, rfl⟩ | ⟨hd, rfl⟩
  · exact ⟨_, (runCommand_ok hd).trans (exec_nop_idle hp'), agree_respond h ..⟩
  · exact ⟨_, (runCommand_ok hd).trans (exec_init_idle hp'), agree_respond (agree_init h _) ..⟩
  · exact ⟨_, (runCommand_ok hd).trans (exec_ldw_idle hp' n d), agree_respond (agree_ldw h n d) ..⟩
  · exact ⟨_, (runCommand_ok hd).trans (exec_start_notInit hp' (hinitd ▸ hi)), agree_raise h _⟩
  · exact ⟨_, (runCommand_ok hd).trans (exec_start_incomplete hp' (hinitd ▸ hi) (hwv ▸ hw)), agree_raise h _⟩
  · exact ⟨_, (runCommand_ok hd).trans (exec_start_ok hp' (hinitd ▸ hi) (hwv ▸ hw)), agree_respond (agree_start h hw) ..⟩
  · exact ⟨_, (runCommand_ok hd).trans (exec_rdh_notInit hp' (hinitd ▸ hi) n), agree_raise h _⟩
  · refine ⟨_, (runCommand_ok hd).trans (exec_rdh_ok hp' (hinitd ▸ hi) n), ?_⟩
    rw [readH_congr (hH hi)]
    exact agree_respond h ..
  · refine ⟨_, (runCommand_ok hd).trans (exec_rds_idle hp'), ?_⟩
    have hstatus : status s = status s' := by simp only [status, hinitd, hwv, hill, hnin, hinc]
    rw [hstatus]
    exact agree_respond h ..
  · exact ⟨_, runCommand_illegal hd, agree_raise h _⟩

end agreeOnDefined

/-- After `Reset` no data word has a value, so that fresh words on both sides agree. -/
theorem agree_resetCore {s s' : State} (he : s.events = s'.events) (hr : s.responses = s'.responses) :
    AgreeOnDefined (resetCore s) (resetCore s') :=
  ⟨⟨rfl, rfl, rfl, rfl, rfl, rfl, rfl, congrArg _ he⟩, he, hr, by simp [HDefined], by simp [VDefined], by simp [WDefined]⟩

/-- Settles O47: `Reset`, a micro-operation, a command and an idle turn each read only words that have a value, and give the
words they newly define the same value on both sides. -/
theorem undefIsNeverObserved : Obligations.UndefIsNeverObserved := by
  intro s s' t hinv h hs
  obtain ⟨hc, he', hr', hdata⟩ := id h
  obtain ⟨hph, ht', -⟩ := id hc
  rcases step_next_cases hs with ⟨es, he, rfl⟩ | ⟨hr, hb, hl, rfl⟩ | ⟨hp, ht, c, d, es, he, hrun⟩ | ⟨hp, ht, he, rfl⟩
  · exact ⟨_, step_reset (he' ▸ he), agree_resetCore rfl hr'⟩
  · refine ⟨_, step_busy (legalPosition_of_sameControl hc hl) (hph ▸ hb) (he' ▸ hr),
      agree_afterMicro ?_ (by simpa using hb) (agree_takeTurn h)⟩
    simpa [Invariants, LegalPosition, BlockReady] using hinv
  · have offered : AgreeOnDefined { s with events := es } { s' with events := es } := by
      obtain ⟨hp, ht, hi, hw, hill, hnin, hinc, -⟩ := hc
      exact ⟨⟨hp, ht, hi, hw, hill, hnin, hinc, rfl⟩, rfl, hr', hdata⟩
    obtain ⟨t', ht'', htt⟩ := runCommand_agree offered hp hrun
    exact ⟨t', (step_command (hph ▸ hp) (ht' ▸ ht) (he' ▸ he)).trans ht'', htt⟩
  · exact ⟨_, step_idle_turn (hph ▸ hp) (ht' ▸ ht) (he' ▸ he), agree_takeTurn h⟩

end Sys2Proof.Machine

/-! # The datapath units of `40_datapath_units.md` (R90 to R92, R95, R96) -/

/-! ## Sums (R90, R91) -/

namespace Sys2Proof.Machine

/-- A sum of words begun at `a`, as an integer reduced once (R91). -/
theorem toNat_foldl_add32 (xs : List Word) (a : Word) :
    (xs.foldl add32 a).toNat = (a.toNat + (xs.map BitVec.toNat).sum) % 2 ^ 32 := by
  induction xs generalizing a with
  | nil => simp [Nat.mod_eq_of_lt a.isLt]
  | cons x xs ih => simp [ih, add32, Nat.add_assoc]

theorem toNat_sum32 (xs : List Word) : (sum32 xs).toNat = (xs.map BitVec.toNat).sum % 2 ^ 32 := by
  rw [sum32, toNat_foldl_add32, BitVec.toNat_ofNat, Nat.zero_mod, Nat.zero_add]

/-- Settles O50: words are added modulo 2^32, and the integer sum of the terms does not know their order. -/
theorem sumsAreModulo : Obligations.SumsAreModulo := by
  refine ⟨BitVec.toNat_add, toNat_sum32, fun xs ys h => BitVec.eq_of_toNat_eq ?_⟩
  rw [toNat_sum32, toNat_sum32, (h.map _).sum_eq]

end Sys2Proof.Machine

/-! ## The rotation (R92) -/

namespace Sys2Proof.Machine

/-- Settles O51: R92's bit line, the source's formula where the amount is its own remainder, and the total extension. -/
theorem rotrBitByBit : Obligations.RotrBitByBit := by
  refine ⟨fun x n j => getLsbD_rotr x n, fun x n _ h => ?formula, fun x => ?zero, fun x n => ?extension⟩
  case formula => rw [rotr, Nat.mod_eq_of_lt (by omega)]
  case zero =>
    refine BitVec.eq_of_getLsbD_eq fun j hj => ?_
    rw [getLsbD_rotr x 0 hj, Nat.add_zero, Nat.mod_eq_of_lt hj]
  case extension => rw [rotr, rotr, Nat.mod_mod]

end Sys2Proof.Machine

/-! ## The two selection functions (R95, R96) -/

namespace Sys2Proof.Machine

/-- R95's bit line. -/
theorem getLsbD_ch (e f g : Word) (j : Nat) :
    (ch e f g).getLsbD j = if e.getLsbD j then f.getLsbD j else g.getLsbD j := by
  simp only [ch, BitVec.getLsbD_xor, BitVec.getLsbD_and, BitVec.getLsbD_not]
  by_cases hj : j < 32
  · cases e.getLsbD j <;> simp [hj]
  · simp [BitVec.getLsbD_of_ge _ _ (Nat.le_of_not_lt hj)]

/-- Settles O53: `CH` picks each bit from `f` or `g` as the bit of `e` says, and so do its other forms. -/
theorem chChooses : Obligations.ChChooses := by
  refine fun e f g => ⟨getLsbD_ch e f g, ?zeros, ?ones, ?same, ?with_or, ?with_xor⟩
  all_goals refine BitVec.eq_of_getLsbD_eq fun j hj => ?_
  all_goals rw [getLsbD_ch]
  case zeros => simp
  case ones =>
    have ones : ∀ j < 32, (0xffffffff#32).getLsbD j = true := by decide
    simp [ones j hj]
  case same => simp
  case with_or =>
    rw [BitVec.getLsbD_or, BitVec.getLsbD_and, BitVec.getLsbD_and, BitVec.getLsbD_not]
    cases e.getLsbD j <;> simp [hj]
  case with_xor =>
    rw [BitVec.getLsbD_xor, BitVec.getLsbD_and, BitVec.getLsbD_xor]
    cases e.getLsbD j <;> cases f.getLsbD j <;> cases g.getLsbD j <;> rfl

/-- R96's bit line. -/
theorem getLsbD_maj (a b c : Word) (j : Nat) : (maj a b c).getLsbD j =
    decide (2 ≤ (a.getLsbD j).toNat + (b.getLsbD j).toNat + (c.getLsbD j).toNat) := by
  simp only [maj, BitVec.getLsbD_xor, BitVec.getLsbD_and]
  cases a.getLsbD j <;> cases b.getLsbD j <;> cases c.getLsbD j <;> rfl

/-- Settles O54: `MAJ` counts the bits of its three operands, in any order, and so does its other form. -/
theorem majTakesTheMajority : Obligations.MajTakesTheMajority := by
  refine fun a b c => ⟨getLsbD_maj a b c, ?same, ?zeros, ?ones, ?swap_first, ?swap_last, ?with_or⟩
  all_goals refine BitVec.eq_of_getLsbD_eq fun j hj => ?_
  all_goals rw [getLsbD_maj]
  case same => cases a.getLsbD j <;> cases c.getLsbD j <;> rfl
  case zeros =>
    rw [BitVec.getLsbD_and, BitVec.getLsbD_zero]
    cases b.getLsbD j <;> cases c.getLsbD j <;> rfl
  case ones =>
    have ones : ∀ j < 32, (0xffffffff#32).getLsbD j = true := by decide
    rw [BitVec.getLsbD_or, ones j hj]
    cases b.getLsbD j <;> cases c.getLsbD j <;> rfl
  case swap_first => rw [getLsbD_maj, Nat.add_comm (a.getLsbD j).toNat]
  case swap_last => rw [getLsbD_maj, Nat.add_right_comm]
  case with_or =>
    simp only [BitVec.getLsbD_or, BitVec.getLsbD_and]
    cases a.getLsbD j <;> cases b.getLsbD j <;> cases c.getLsbD j <;> rfl

end Sys2Proof.Machine

/-! # The two constant ROMs of `41_constant_roms.md` section 3 -/

namespace Sys2Proof.Machine

/-- The integer part of the `k`-th root of `p`, up to 6, which is all that the first 64 primes need. -/
def rootFloor (k p : Nat) : Nat := (List.range 6).countP fun r => (r + 1) ^ k ≤ p

/-- The first 64 primes, whose roots the ROM tables are made of. -/
def romPrimes : Vector Nat 64 :=
  #v[2, 3, 5, 7, 11, 13, 17, 19, 23, 29, 31, 37, 41, 43, 47, 53, 59, 61, 67, 71, 73, 79, 83, 89, 97, 101, 103, 107,
    109, 113, 127, 131, 137, 139, 149, 151, 157, 163, 167, 173, 179, 181, 191, 193, 197, 199, 211, 223, 227, 229, 233, 239,
    241, 251, 257, 263, 269, 271, 277, 281, 283, 293, 307, 311]

/-- The integer part of the square root of a prime before the ROM word is the root of the prime times `2 ^ 64`. -/
theorem square_root_bounds : ∀ i : Fin 8,
    let p := (#v[2, 3, 5, 7, 11, 13, 17, 19] : Vector Nat 8)[i]
    let r := rootFloor 2 p * 2 ^ 32 + IVROM[i].toNat
    r * r ≤ p * 2 ^ 64 ∧ p * 2 ^ 64 < (r + 1) * (r + 1) := by decide

/-- The integer part of the cube root of a prime before the ROM word is the root of the prime times `2 ^ 96`. -/
theorem cube_root_bounds : ∀ t : Fin 64,
    let r := rootFloor 3 romPrimes[t] * 2 ^ 32 + KROM[t].toNat
    r ^ 3 ≤ romPrimes[t] * 2 ^ 96 ∧ romPrimes[t] * 2 ^ 96 < (r + 1) ^ 3 := by decide

/-- Settles O56: the root of each prime, its integer part before the ROM word, lies where squaring and cubing put it. -/
theorem romsAreTheRootFractions : Obligations.RomsAreTheRootFractions := by
  refine ⟨fun i => ?_, fun t => ⟨rootFloor 3 romPrimes[t] * 2 ^ 32 + KROM[t].toNat, ?_⟩⟩
  · rw [← Nat.eq_sqrt.mpr (square_root_bounds i), Nat.mul_add_mod_of_lt IVROM[i].isLt]
  · obtain ⟨lower, upper⟩ := cube_root_bounds t
    exact ⟨lower, upper, (Nat.mul_add_mod_of_lt KROM[t].isLt).symm⟩

end Sys2Proof.Machine

/-! # The host's side: padding and the two known digests (`46_host_driver_protocol.md` section 1, `95_test_vectors.md`) -/

/-! ## The parts of a padded message (R185, R186) -/

namespace Sys2Proof.Machine

/-- The integer of big-endian bytes (R50). -/
def beNat (n : Nat) (bytes : List Byte) : Nat := bytes.foldl (fun n b => n * 2 ^ 8 + b.toNat) n

theorem beNat_append (n : Nat) (xs ys : List Byte) : beNat n (xs ++ ys) = beNat (beNat n xs) ys := List.foldl_append

/-- A word's four bytes, read after an integer `n`, are its 32 bits below `n`. -/
theorem beNat_bytesOfWord (n : Nat) (x : Word) : beNat n (bytesOfWord x) = n * 2 ^ 32 + x.toNat := by
  simp only [beNat, bytesOfWord, List.foldl, BitVec.extractLsb'_toNat, Nat.shiftRight_eq_div_pow]
  omega

theorem lengthField_length (L : Nat) : (lengthField L).length = 8 := rfl

/-- The length field holds the bit length, which has room in its 64 bits (R185). -/
theorem beNat_lengthField {L : Nat} (h : L < 2 ^ 61) : beNat 0 (lengthField L) = 8 * L := by
  have split : lengthField L = bytesOfWord ((BitVec.ofNat 64 (8 * L)).extractLsb' 32 32) ++
      bytesOfWord ((BitVec.ofNat 64 (8 * L)).extractLsb' 0 32) := rfl
  rw [split, beNat_append, beNat_bytesOfWord, beNat_bytesOfWord]
  simp only [BitVec.extractLsb'_toNat, BitVec.toNat_ofNat, Nat.shiftRight_eq_div_pow]
  omega

/-- `z` zero bytes make the bit length 448 modulo 512 (R185), so that the length field completes the last block. -/
theorem zeroBytes_fill (L : Nat) : 8 * (L + 1 + zeroBytes L) % 512 = 448 ∧ (L + 1 + zeroBytes L + 8) % 64 = 0 ∧
    (L + 1 + zeroBytes L + 8) / 64 = (L + 8) / 64 + 1 := by
  unfold zeroBytes
  omega

/-- No smaller number of zero bytes does (R186). -/
theorem zeroBytes_least {L y : Nat} (h : y < zeroBytes L) : 8 * (L + 1 + y) % 512 ≠ 448 := by
  unfold zeroBytes at h
  omega

/-- The padded message of R185, part by part. -/
def padded (msg : List Byte) : List Byte :=
  msg ++ ([0x80#8] ++ (List.replicate (zeroBytes msg.length) 0#8 ++ lengthField msg.length))

theorem pad_eq {msg : List Byte} (h : msg.length < 2 ^ 61) : pad msg = some (padded msg) := by
  rw [pad, if_pos h, padded, List.append_assoc, List.append_assoc]

theorem padded_length (msg : List Byte) : (padded msg).length = msg.length + 1 + zeroBytes msg.length + 8 := by
  simp only [padded, List.length_append, List.length_cons, List.length_nil, List.length_replicate, lengthField_length]
  omega

/-- Behind the message stands `0x80`, and behind that `z` zero bytes. -/
theorem padded_getElem? (msg : List Byte) : (padded msg)[msg.length]? = some 0x80#8 ∧
    ∀ k, k < zeroBytes msg.length → (padded msg)[msg.length + 1 + k]? = some 0x00#8 := by
  refine ⟨by simp [padded], fun k hk => ?_⟩
  rw [padded, List.getElem?_append_right (by omega), Nat.add_assoc, Nat.add_sub_cancel_left,
    List.getElem?_append_right (by simp), List.length_singleton, Nat.add_sub_cancel_left,
    List.getElem?_append_left (by simpa using hk), List.getElem?_replicate, if_pos hk]

/-- The last eight bytes are the length field. -/
theorem padded_drop (msg : List Byte) : (padded msg).drop ((padded msg).length - 8) = lengthField msg.length := by
  have front : padded msg = (msg ++ ([0x80#8] ++ List.replicate (zeroBytes msg.length) 0#8)) ++ lengthField msg.length := by
    simp [padded]
  rw [front, List.length_append, lengthField_length, Nat.add_sub_cancel, List.drop_left]

/-- Settles O59: each part of the padded message stands where R185 puts it, and `z` is the least that fills the block. -/
theorem paddingPostconditions : Obligations.PaddingPostconditions := by
  intro msg h
  obtain ⟨fill, whole, blocks⟩ := zeroBytes_fill msg.length
  obtain ⟨marker, zeros⟩ := padded_getElem? msg
  have len := padded_length msg
  refine ⟨padded msg, zeroBytes msg.length, pad_eq h, rfl, fill, fun y => zeroBytes_least, len, by rw [len, whole],
    by omega, by rw [len, blocks], List.take_left, marker, zeros, ?_⟩
  rw [padded_drop]
  exact beNat_lengthField h

end Sys2Proof.Machine

/-! ## The two known digests -/

namespace Sys2Proof.Machine

/-- The hash of a message of one block: its padded block compressed from the initial state. -/
theorem sha256_one_block {msg : List Byte} {M : Vector Word 16} (h : (pad msg).map blocksOf = some [M]) :
    sha256 msg = some (digest (compress IVROM M)) := by
  obtain ⟨P, hP, hM⟩ := Option.map_eq_some_iff.mp h
  rw [sha256, hP, Option.map_some, hM]
  rfl

/-- The empty message, padded. -/
def emptyBlock : Vector Word 16 := #v[0x80000000#32, 0, 0, 0, 0, 0, 0, 0, 0, 0, 0, 0, 0, 0, 0, 0]

/-- The message "abc", padded. -/
def abcMessageBlock : Vector Word 16 := #v[0x61626380#32, 0, 0, 0, 0, 0, 0, 0, 0, 0, 0, 0, 0, 0, 0, 0x00000018#32]

theorem compress_emptyBlock : compress IVROM emptyBlock = #v[0xe3b0c442#32, 0x98fc1c14#32, 0x9afbf4c8#32, 0x996fb924#32,
    0x27ae41e4#32, 0x649b934c#32, 0xa495991b#32, 0x7852b855#32] := by
  decide +kernel

theorem compress_abcMessageBlock : compress IVROM abcMessageBlock = #v[0xba7816bf#32, 0x8f01cfea#32, 0x414140de#32,
    0x5dae2223#32, 0xb00361a3#32, 0x96177a9c#32, 0xb410ff61#32, 0xf20015ad#32] := by
  decide +kernel

/-- Settles O57: each message is one block when padded, and compressing that block gives the words of its digest. -/
theorem knownDigests : Obligations.KnownDigests := by
  have empty : (pad []).map blocksOf = some [emptyBlock] := by decide
  have abc : (pad [0x61#8, 0x62#8, 0x63#8]).map blocksOf = some [abcMessageBlock] := by decide
  exact ⟨by rw [sha256_one_block empty, compress_emptyBlock], by rw [sha256_one_block abc, compress_abcMessageBlock]⟩

end Sys2Proof.Machine

/-! ## The feed-forward (R134) -/

namespace Sys2Proof.Machine

/-- Settles O27: at its position `FOLD` adds word by word and leaves the core idle, and `v` and `W` as they were. -/
theorem foldAddsBack : Obligations.FoldAddsBack :=
  ⟨rfl, fun s hp ht => ⟨_, atPosition_here hp ht, feedForward_getElem s.H s.v, rfl, rfl, rfl, rfl, rfl, rfl, rfl,
    ⟨rfl, rfl, rfl⟩, rfl, rfl, rfl⟩⟩

end Sys2Proof.Machine

/-! # Whole blocks (`42_schedule_expander.md` R121, `43_compressor.md` R135 to R138) -/

/-! ## Runs of the sequencer -/

namespace Sys2Proof.Machine

/-- A run goes on from where its first steps have led. -/
theorem run_append {s u : State} {m : Nat} (h : Host.Core.run core m s = .next u) (n : Nat) :
    Host.Core.run core (m + n) s = Host.Core.run core n u := by
  induction m generalizing s with
  | zero =>
    cases h
    rw [Nat.zero_add]
  | succ m ih =>
    cases hs : step s with
    | next s₁ =>
      rw [run_succ hs] at h
      rw [Nat.succ_add, run_succ hs, ih h]
    | fault r => exact nomatch r
    | refused r =>
      have hs' : core.step s = .refused r := hs
      simp [Host.Core.run, hs'] at h

theorem afterMicro_iterate_withEvents (k : Nat) (s : State) (es : List Event) :
    afterMicro^[k] { s with events := es } = { afterMicro^[k] s with events := es } := by
  induction k generalizing s with
  | zero => rfl
  | succ k ih => rw [Function.iterate_succ_apply, afterMicro_withEvents, ih, Function.iterate_succ_apply]

/-- No number of micro-operations answers anything. -/
theorem afterMicro_iterate_responses (k : Nat) (s : State) : (afterMicro^[k] s).responses = s.responses := by
  induction k generalizing s with
  | zero => rfl
  | succ k ih => rw [Function.iterate_succ_apply, ih, afterMicro_responses]

/-- `k` micro-operations of a running block leave `k` fewer to come. -/
theorem stepsLeft_iterate {s : State} (hl : LegalPosition s) {k : Nat} (hk : k ≤ stepsLeft s.ph s.t) :
    stepsLeft (afterMicro^[k] s).ph (afterMicro^[k] s).t + k = stepsLeft s.ph s.t := by
  induction k generalizing s with
  | zero => rfl
  | succ k ih =>
    have hb : s.ph ≠ .idle := busy_of_stepsLeft_pos (Nat.lt_of_lt_of_le (Nat.succ_pos k) hk)
    have moved := afterMicro_position hl hb
    have fewer := stepsLeft_of_nextPosition moved
    rw [Function.iterate_succ_apply, ← fewer, ← ih (legalPosition_of_nextPosition moved) (by omega), Nat.add_assoc]

/-- Until the last of them the core is busy. -/
theorem afterMicro_iterate_busy {s : State} (hl : LegalPosition s) {k : Nat} (hk : k < stepsLeft s.ph s.t) :
    (afterMicro^[k] s).ph ≠ .idle := by
  refine busy_of_stepsLeft_pos (n := (afterMicro^[k] s).t) ?_
  have left := stepsLeft_iterate hl (Nat.le_of_lt hk)
  omega

/-- With no `Reset` scheduled, the steps of a running block are its micro-operations, and the schedule loses its turns. -/
theorem run_micro {s : State} (hl : LegalPosition s) (hr : Event.reset ∉ s.events) {k : Nat}
    (hk : k ≤ stepsLeft s.ph s.t) :
    Host.Core.run core k s = .next { afterMicro^[k] s with events := afterTurns k s.events } := by
  induction k generalizing s with
  | zero => rfl
  | succ k ih =>
    have hb : s.ph ≠ .idle := busy_of_stepsLeft_pos (Nat.lt_of_lt_of_le (Nat.succ_pos k) hk)
    have hs := step_busy hl hb fun es he => hr (by simp [he])
    have moved := afterMicro_position hl hb
    have fewer := stepsLeft_of_nextPosition moved
    have hr' : Event.reset ∉ afterTurns 1 s.events := by
      rcases takeTurn_events_cases s with ⟨es, he, -⟩ | ⟨hn, -⟩
      · simpa [he, afterTurns] using hr
      · rwa [afterTurns_of_no_turn hn]
    rw [takeTurn_eq, afterMicro_withEvents] at hs
    rw [run_succ hs, ih (s := { afterMicro s with events := afterTurns 1 s.events }) (legalPosition_of_nextPosition moved)
      hr' (by simp only; omega), afterMicro_iterate_withEvents, afterTurns_afterTurns_one, ← Function.iterate_succ_apply]

end Sys2Proof.Machine

/-! ## The micro-operations of a block -/

namespace Sys2Proof.Machine

/-- One expansion step is one step of the recurrence (R121, R122). -/
theorem afterMicro_expandSteps {s : State} (hp : s.ph = .expand) (w : Vector Word 64) (n : Nat) :
    afterMicro { s with W := expandSteps w n, t := BitVec.ofNat 6 (16 + n) } =
      afterXpnd (BitVec.ofNat 6 (16 + n)) { s with W := expandSteps w (n + 1), t := BitVec.ofNat 6 (16 + n) } :=
  afterMicro_expand hp

/-- The first `n` of the 48 expansion steps. -/
theorem afterMicro_iterate_expand {s : State} (hp : s.ph = .expand) (ht : s.t = 16#6) {n : Nat} (hn : n < 48) :
    afterMicro^[n] s = { s with W := expandSteps s.W n, t := BitVec.ofNat 6 (16 + n) } := by
  induction n with
  | zero => rw [Nat.add_zero, ← ht]; rfl
  | succ n ih =>
    have below : BitVec.ofNat 6 (16 + n) < 63#6 := by rw [BitVec.lt_def, stepIndex_toNat (by omega)]; simp; omega
    rw [Function.iterate_succ_apply', ih (by omega), afterMicro_expandSteps hp, afterXpnd, if_pos below]
    simp [moveTo, hp, BitVec.ofNat_add, add_assoc]

/-- All 48 of them (R122). -/
theorem afterMicro_iterate_expansion {s : State} (hp : s.ph = .expand) (ht : s.t = 16#6) :
    afterMicro^[48] s = { s with W := expandSteps s.W 48, ph := .loadv, t := 0#6 } := by
  have last : ¬BitVec.ofNat 6 (16 + 47) < 63#6 := by decide
  rw [Function.iterate_succ_apply', afterMicro_iterate_expand hp ht (by decide), afterMicro_expandSteps hp, afterXpnd,
    if_neg last]
  rfl

/-- One round step is one step of the recurrence (R132, R135). -/
theorem afterMicro_roundSteps {s : State} (hp : s.ph = .round) (x : Vector Word 8) (n : Nat) :
    afterMicro { s with v := roundSteps s.W x n, t := BitVec.ofNat 6 n } =
      afterRnd (BitVec.ofNat 6 n) { s with v := roundSteps s.W x (n + 1), t := BitVec.ofNat 6 n } :=
  afterMicro_round hp

/-- The first `n` of the 64 rounds. -/
theorem afterMicro_iterate_round {s : State} (hp : s.ph = .round) (ht : s.t = 0#6) {n : Nat} (hn : n < 64) :
    afterMicro^[n] s = { s with v := roundSteps s.W s.v n, t := BitVec.ofNat 6 n } := by
  induction n with
  | zero => rw [← ht]; rfl
  | succ n ih =>
    have below : BitVec.ofNat 6 n < 63#6 := by rw [BitVec.lt_def, BitVec.toNat_ofNat]; simp; omega
    rw [Function.iterate_succ_apply', ih (by omega), afterMicro_roundSteps hp, afterRnd, if_pos below]
    simp [moveTo, hp, BitVec.ofNat_add]

/-- All 64 of them (R132). -/
theorem afterMicro_iterate_rounds {s : State} (hp : s.ph = .round) (ht : s.t = 0#6) :
    afterMicro^[64] s = { s with v := roundSteps s.W s.v 64, ph := .fold, t := 0#6 } := by
  have last : ¬BitVec.ofNat 6 63 < 63#6 := by decide
  rw [Function.iterate_succ_apply', afterMicro_iterate_round hp ht (by decide), afterMicro_roundSteps hp, afterRnd,
    if_neg last]
  rfl

/-- The expansion needs of the schedule memory the block words only (R121). -/
theorem expandSteps_blockWords (s : State) : expandSteps s.W 48 = expand (blockWords s) :=
  isSchedule_unique (isSchedule_expandSteps fun i => by simp [blockWords]) (isSchedule_expand _)

/-- The 114 micro-operations from the entry: expansion, `LOADV`, rounds, `FOLD` (R135, R137). -/
theorem afterMicro_iterate_block {s : State} (hp : s.ph = .expand) (ht : s.t = 16#6) :
    afterMicro^[114] s = { s with
      H := compress s.H (blockWords s), v := roundSteps (expand (blockWords s)) s.H 64, W := expand (blockWords s),
      WV := 0#16, ph := .idle, t := 0#6 } := by
  rw [Function.iterate_add_apply afterMicro 66 48, afterMicro_iterate_expansion hp ht,
    Function.iterate_succ_apply, afterMicro_loadv rfl, Function.iterate_succ_apply', afterMicro_iterate_rounds rfl rfl,
    afterMicro_fold rfl, compress, ← expandSteps_blockWords]
  rfl

/-- Settles O31: the run is the 48 steps of the expansion, which leave the block words in place. -/
theorem expansionRun : Obligations.ExpansionRun := by
  intro s hp ht hr
  have hrun := run_micro (s := s) (k := 48) (by simp [LegalPosition, hp, ht]) hr (by rw [hp, ht]; decide)
  rw [afterMicro_iterate_expansion hp ht, expandSteps_blockWords] at hrun
  refine ⟨_, hrun, rfl, ?_, rfl, rfl, rfl, rfl, ⟨rfl, rfl, rfl, rfl, rfl⟩, rfl, rfl⟩
  obtain ⟨block, -⟩ := isSchedule_expand (blockWords s)
  exact Vector.ext fun i hi => (Vector.getElem_ofFn hi).trans (block ⟨i, hi⟩)

/-- Settles O32: `START` enters the sequencer, 114 micro-operations follow, and fewer of them leave the core busy. -/
theorem startCompressesTheBlock : Obligations.StartCompressesTheBlock := by
  intro s d es hp ht hi hw he hr
  have hs := step_start hp ht hi hw he
  have hl : LegalPosition (respond .ok 0#32 (moveTo .expand 16#6 { s with events := es })) := by simp [LegalPosition]
  have run (k : Nat) (hk : k ≤ 114) := (run_succ hs k).trans (run_micro hl hr hk)
  refine ⟨fun k hk => ⟨_, run k (by omega), (busy_eq_true_iff _).mpr (afterMicro_iterate_busy hl hk),
    afterMicro_iterate_responses k _⟩, ?_⟩
  have hrun := run 114 (Nat.le_refl _)
  rw [afterMicro_iterate_block rfl rfl] at hrun
  exact ⟨_, hrun, rfl, rfl, rfl, rfl, rfl, ⟨rfl, rfl, rfl⟩, rfl, rfl⟩

end Sys2Proof.Machine

/-! # The host's commands, run in order (`43_compressor.md` R138, `46_host_driver_protocol.md` R187) -/

/-! ## The transfers of a list of commands -/

namespace Sys2Proof.Machine

/-- A schedule of nothing but commands, as the driver makes it: no `Reset`, and no turn of the sequencer to use up. -/
def CommandsOnly (es : List Event) : Prop := ∀ e ∈ es, ∃ c d, e = .cmd c d

theorem commandsOnly_nil : CommandsOnly [] := fun _ h => nomatch h

theorem commandsOnly_append {es es' : List Event} (h : CommandsOnly es) (h' : CommandsOnly es') : CommandsOnly (es ++ es') :=
  fun e he => (List.mem_append.mp he).elim (h e) (h' e)

theorem commandsOnly_flatMap {α : Type} {l : List α} {f : α → List Event} (h : ∀ a, CommandsOnly (f a)) :
    CommandsOnly (l.flatMap f) := fun e he =>
  have ⟨a, _, hea⟩ := List.mem_flatMap.mp he
  h a e hea

theorem commandsOnly_issue (i : Instr) : CommandsOnly (issue i) := by
  unfold issue
  split
  next c d _ => exact fun e he => ⟨c, d, List.mem_singleton.mp he⟩
  next => exact commandsOnly_nil

theorem commandsOnly_hashblk (M : Vector Word 16) : CommandsOnly (hashblk M) :=
  commandsOnly_append (commandsOnly_flatMap fun _ => commandsOnly_issue _) (commandsOnly_issue _)

theorem not_reset_of_commandsOnly {es : List Event} (h : CommandsOnly es) : Event.reset ∉ es := by
  intro hr
  obtain ⟨c, d, he⟩ := h _ hr
  cases he

theorem afterTurns_of_commandsOnly {es : List Event} (h : CommandsOnly es) (n : Nat) : afterTurns n es = es := by
  refine afterTurns_of_no_turn ?_ n
  rintro es' rfl
  obtain ⟨c, d, he⟩ := h .seqStep List.mem_cons_self
  cases he

/-- The idle core runs the command it is sent. -/
theorem step_issue {s t : State} {i : Instr} {c : BitVec 8} {d : Word} {es : List Event} (hc : encode i = .cmd c d)
    (hw : i.wellFormed = true) (hp : s.ph = .idle) (ht : s.t = 0#6) (he : s.events = issue i ++ es)
    (hx : exec i { s with events := es } = .next t) : step s = .next t := by
  have hi : issue i = [.cmd c d] := by rw [issue, hc]
  rw [hi] at he
  exact (step_command hp ht he).trans ((runCommand_ok (hc ▸ decodeEncodeAgree i hw)).trans hx)

end Sys2Proof.Machine

/-! ## Loading a block (R82, R153) -/

namespace Sys2Proof.Machine

/-- Word `i` of the block `M` is in its place, and its flag set. -/
def HoldsWord (M : Vector Word 16) (s : State) (i : Fin 16) : Prop := s.W[i.val] = M[i] ∧ s.WV.getLsbD i.val = true

/-- The state with word `j` of the block `M` loaded, as `LDW` leaves it (R153). -/
def loadWord (M : Vector Word 16) (j : Fin 16) (s : State) : State :=
  setLoaded (BitVec.ofFin j) (writeW (blockIndex (BitVec.ofFin j)) M[j] s)

/-- `LDW` puts a word of the block in its place and leaves those that are there. -/
theorem holdsWord_ldw {M : Vector Word 16} {s : State} {i j : Fin 16} (h : i = j ∨ HoldsWord M s i) :
    HoldsWord M (loadWord M j s) i := by
  have hj : (blockIndex (BitVec.ofFin j)).toNat = j.val := blockIndex_toNat _
  constructor
  · simp only [loadWord, setLoaded_W, writeW_W, hj, Vector.getElem_set]
    split
    next hij => rw [Fin.ext hij]
    next hij => exact (h.resolve_left fun e => hij (congrArg Fin.val e.symm)).1
  · rw [loadWord, setLoaded_WV_getLsbD]
    rcases h with rfl | ⟨-, hbit⟩
    · simp
    · simp [hbit]

/-- A list of `LDW`s of a block: the words it names are loaded, the words loaded before stay, all commands are answered
`OK`, and nothing but `W` and `WV` changes. -/
theorem run_ldws (M : Vector Word 16) (is : List (Fin 16)) {s : State} {es : List Event} (hp : s.ph = .idle)
    (ht : s.t = 0#6) (he : s.events = (is.flatMap fun i => issue (.ldw (BitVec.ofFin i) M[i])) ++ es) :
    ∃ W WV, let t := { s with
        W := W, WV := WV, events := es, responses := List.replicate is.length ⟨.ok, 0#32⟩ ++ s.responses }
      Host.Core.run core is.length s = .next t ∧ ∀ i, i ∈ is ∨ HoldsWord M s i → HoldsWord M t i := by
  induction is generalizing s with
  | nil =>
    refine ⟨s.W, s.WV, ?_, fun i hi => hi.resolve_left List.not_mem_nil⟩
    subst he
    rfl
  | cons j is ih =>
    rw [List.flatMap_cons, List.append_assoc] at he
    generalize hrest : (is.flatMap fun i => issue (.ldw (BitVec.ofFin i) M[i])) ++ es = rest at he
    have hx := exec_ldw_idle (s := { s with events := rest }) hp (BitVec.ofFin j) M[j]
    obtain ⟨W, WV, hrun, hwords⟩ := ih (s := respond .ok 0#32 (loadWord M j { s with events := rest })) hp ht hrest.symm
    refine ⟨W, WV, ?_, fun i hi => hwords i ?_⟩
    · rw [List.length_cons, run_succ (step_issue rfl rfl hp ht he hx)]
      refine hrun.trans ?_
      simp [List.replicate_succ', respond, loadWord, setLoaded, writeW]
    · rw [List.mem_cons, or_comm (a := i = j), or_assoc] at hi
      exact hi.imp_right holdsWord_ldw

/-- A state that holds every word of a block is ready to `START` on it. -/
theorem block_loaded {M : Vector Word 16} {s : State} (h : ∀ i, HoldsWord M s i) : blockWords s = M ∧ s.WV = 0xFFFF#16 := by
  constructor
  · exact Vector.ext fun i hi => (Vector.getElem_ofFn hi).trans (h ⟨i, hi⟩).1
  · by_contra hw
    obtain ⟨k, hk, hclear⟩ := (WV_ne_full_iff s.WV).mp hw
    rw [(h ⟨k, hk⟩).2] at hclear
    cases hclear

end Sys2Proof.Machine

/-! ## Blocks in order (R138) -/

namespace Sys2Proof.Machine

/-- What a run of accepted commands has come to: the core is idle and initialised, with `H` as given and `es` still to do;
it has answered `n` commands, each `OK` with no data, and set no error flag. -/
structure IdleAfter (n : Nat) (H : Vector Word 8) (es : List Event) (s u : State) : Prop where
  H : u.H = H
  ph : u.ph = .idle
  t : u.t = 0#6
  INITD : u.INITD = true
  errors : SameErrors s u
  events : u.events = es
  responses : u.responses = List.replicate n ⟨.ok, 0#32⟩ ++ s.responses

theorem IdleAfter.trans {m n : Nat} {H H' : Vector Word 8} {es es' : List Event} {s t u : State}
    (h : IdleAfter m H es s t) (h' : IdleAfter n H' es' t u) : IdleAfter (n + m) H' es' s u := by
  obtain ⟨hill, hnin, hinc⟩ := h.errors
  obtain ⟨hill', hnin', hinc'⟩ := h'.errors
  refine { h' with errors := ⟨hill'.trans hill, hnin'.trans hnin, hinc'.trans hinc⟩, responses := ?_ }
  rw [h'.responses, h.responses, ← List.append_assoc, List.replicate_append_replicate]

/-- `INIT` makes any idle core one with the initial state in `H`. -/
theorem run_init {s : State} {es : List Event} (hp : s.ph = .idle) (ht : s.t = 0#6) (he : s.events = issue .init ++ es) :
    ∃ t, Host.Core.run core 1 s = .next t ∧ IdleAfter 1 IVROM es s t :=
  ⟨_, run_succ (step_issue rfl rfl hp ht he (exec_init_idle hp)) 0, rfl, hp, ht, rfl, ⟨rfl, rfl, rfl⟩, rfl, rfl⟩

/-- One block: sixteen `LDW`, the `START`, and the 114 steps that compress it into `H`. -/
theorem run_hashblk {s : State} {M : Vector Word 16} {es : List Event} (hp : s.ph = .idle) (ht : s.t = 0#6)
    (hi : s.INITD = true) (hes : CommandsOnly es) (he : s.events = hashblk M ++ es) :
    ∃ t, Host.Core.run core 131 s = .next t ∧ IdleAfter 17 (compress s.H M) es s t := by
  rw [hashblk, ldblk, List.append_assoc] at he
  obtain ⟨W, WV, hload, hwords⟩ := run_ldws M (List.finRange 16) hp ht he
  obtain ⟨hM, hfull⟩ := block_loaded fun i => hwords i (.inl (List.mem_finRange i))
  obtain ⟨-, u, hrun, hH, -, hph, hut, hinit, ⟨hill, hnin, hinc⟩, hok, hev⟩ :=
    startCompressesTheBlock { s with W := W, WV := WV, events := _, responses := _ } 0#32 es hp ht hi hfull rfl
      (not_reset_of_commandsOnly hes)
  refine ⟨u, (run_append hload 115).trans hrun, by rw [hH, hM], hph, hut, hinit.trans hi, ⟨hill, hnin, hinc⟩,
    hev.trans (afterTurns_of_commandsOnly hes 114), hok⟩

/-- Blocks in order are chained through `H`. -/
theorem run_blocks (Ms : List (Vector Word 16)) {s : State} {es : List Event} (hp : s.ph = .idle) (ht : s.t = 0#6)
    (hi : s.INITD = true) (hes : CommandsOnly es) (he : s.events = Ms.flatMap hashblk ++ es) :
    ∃ t, Host.Core.run core (131 * Ms.length) s = .next t ∧ IdleAfter (17 * Ms.length) (compressAll s.H Ms) es s t := by
  induction Ms generalizing s with
  | nil => exact ⟨s, rfl, rfl, hp, ht, hi, ⟨rfl, rfl, rfl⟩, he, rfl⟩
  | cons M Ms ih =>
    rw [List.flatMap_cons, List.append_assoc] at he
    obtain ⟨u, hu, first⟩ :=
      run_hashblk hp ht hi (commandsOnly_append (commandsOnly_flatMap commandsOnly_hashblk) hes) he
    obtain ⟨t, hrun, rest⟩ := ih first.ph first.t first.INITD first.events
    refine ⟨t, ?_, ?_⟩
    · rw [List.length_cons, Nat.mul_succ, Nat.add_comm, run_append hu, hrun]
    · rw [List.length_cons, Nat.mul_succ]
      rw [first.H] at rest
      exact first.trans rest

/-- `INIT` and then blocks in order: `H` is the chained compression of the blocks from the initial state. -/
theorem run_init_blocks (Ms : List (Vector Word 16)) {s : State} {es : List Event} (hp : s.ph = .idle) (ht : s.t = 0#6)
    (hes : CommandsOnly es) (he : s.events = issue .init ++ Ms.flatMap hashblk ++ es) :
    ∃ t, Host.Core.run core (1 + 131 * Ms.length) s = .next t ∧
      IdleAfter (1 + 17 * Ms.length) (compressAll IVROM Ms) es s t := by
  rw [List.append_assoc] at he
  obtain ⟨u, hu, first⟩ := run_init hp ht he
  obtain ⟨t, hrun, rest⟩ := run_blocks Ms first.ph first.t first.INITD hes first.events
  refine ⟨t, (run_append hu _).trans hrun, ?_⟩
  rw [first.H] at rest
  rw [Nat.add_comm]
  exact first.trans rest

/-- Settles O33: with nothing behind the blocks, the run ends there. -/
theorem blocksChainThroughH : Obligations.BlocksChainThroughH := by
  intro Ms s hp ht he
  obtain ⟨t, hrun, h⟩ := run_init_blocks Ms hp ht commandsOnly_nil (he.trans (List.append_nil _).symm)
  exact ⟨t, hrun, h.H, h.ph, h.t, h.INITD, h.errors, h.events, h.responses⟩

end Sys2Proof.Machine

/-! ## Reading the digest (R187, R188) -/

namespace Sys2Proof.Machine

/-- A list of `RDH`s on an initialised core: each is answered with its word of `H`, and nothing else changes. -/
theorem run_rdhs (is : List (Fin 8)) {s : State} {es : List Event} (hp : s.ph = .idle) (ht : s.t = 0#6)
    (hi : s.INITD = true) (he : s.events = (is.flatMap fun i => issue (.rdh (BitVec.ofFin i))) ++ es) :
    Host.Core.run core is.length s =
      .next { s with events := es, responses := (is.map fun i => ⟨.ok, s.H[i]⟩).reverse ++ s.responses } := by
  induction is generalizing s with
  | nil =>
    subst he
    rfl
  | cons j is ih =>
    rw [List.flatMap_cons, List.append_assoc] at he
    generalize hrest : (is.flatMap fun i => issue (.rdh (BitVec.ofFin i))) ++ es = rest at he
    have hx := exec_rdh_ok (s := { s with events := rest }) hp hi (BitVec.ofFin j)
    rw [List.length_cons, run_succ (step_issue rfl rfl hp ht he hx),
      ih (s := respond .ok _ { s with events := rest }) hp ht hi hrest.symm]
    simp [respond, readH]

/-- The commands of the driver, block by block. -/
theorem driverEvents_eq {msg : List Byte} (h : msg.length < 2 ^ 61) : driverEvents msg =
    some (issue .init ++ (blocksOf (padded msg)).flatMap hashblk ++ rddigest) := by
  rw [driverEvents, pad_eq h, Option.map_some]

theorem sha256_eq {msg : List Byte} (h : msg.length < 2 ^ 61) :
    sha256 msg = some (digest (compressAll IVROM (blocksOf (padded msg)))) := by
  rw [sha256, pad_eq h, Option.map_some]

theorem blocksOf_padded_length (msg : List Byte) : (blocksOf (padded msg)).length = (msg.length + 8) / 64 + 1 := by
  obtain ⟨-, -, blocks⟩ := zeroBytes_fill msg.length
  rw [blocksOf, List.length_map, List.length_range, padded_length, blocks]

/-- Settles O34: the driver's blocks leave the hash in `H`, and its eight reads answer with it. -/
theorem driverReadsTheHash : Obligations.DriverReadsTheHash := by
  intro msg s h hp ht he n
  rw [driverEvents_eq h, Option.some_inj, eq_comm] at he
  have hn : (blocksOf (padded msg)).length = n := blocksOf_padded_length msg
  obtain ⟨u, hu, hashed⟩ := run_init_blocks _ hp ht (commandsOnly_flatMap fun _ => commandsOnly_issue _) he
  rw [hn] at hu hashed
  have hread := run_rdhs (List.finRange 8) hashed.ph hashed.t hashed.INITD (hashed.events.trans (List.append_nil _).symm)
  refine ⟨_, (run_append hu 8).trans hread, ?_, ?_, hashed.ph, hashed.t, hashed.INITD, hashed.errors, rfl⟩
  · rw [List.append_assoc, ← hashed.responses]
  · rw [sha256_eq h, ← hashed.H]

end Sys2Proof.Machine
